-- ==== Sys2Proof/Word.lean ====
section
/-! DEFINITION. The two word types of the block: every register and table entry is 64 bits wide
(00_scope.md R10, R12: unsigned values of a stated width), every input unit is a byte. -/

namespace Sys2Proof

/-- A register, table entry or command word: 64 bits (00_scope.md R10). -/
abbrev Word := BitVec 64

/-- One input byte (00_scope.md R10, "input unit"). -/
abbrev Byte := BitVec 8

end Sys2Proof
end

