-- ==== Sys2Proof/Config.lean ====
section
/-! DEFINITION. The open parameters of the block (92_eei_decisions.md, "Open parameters").

The spec has two, BASE (D18) and P_NARROW (D14), and asks that a model take them as arguments
(00_scope.md R10). They stand as two fields of State that no step changes, so a statement about
every state holds for every value of both (notes/assumptions/1.md and 2.md). The spec leaves no
VALUE open that a machine could observe, so there is no opaque constant here. -/

namespace Sys2Proof

/-- Parameter P_NARROW: whether BITS = 1 is a legal width (10_state.md R23; 92_eei_decisions.md D14). -/
inductive Narrow where
  | accept
  | reject
deriving DecidableEq, Repr

end Sys2Proof
end

