-- ==== Sys2Proof/Syntax.lean ====
section
/-! DEFINITION. The command set: one constructor for each row of spec/opcode_table.json
(30_encoding.md R84), with the operands as the assembler writes them (R89): a byte operand and a
count are plain numbers, and `Instr.wellFormed` says which of them have an encoding. -/

namespace Sys2Proof

/-- The fourteen commands (30_encoding.md R84). -/
inductive Instr where
  /-- NOP, form C0 (44_control.md R180). -/
  | nop
  /-- SELW, form C0 (40_polynomial_forms.md R101). -/
  | selw
  /-- ONES, form C0 (40_polynomial_forms.md R102). -/
  | ones
  /-- TOKOOP, form C0 (40_polynomial_forms.md R103). -/
  | tokoop
  /-- FROMKOOP, form C0 (40_polynomial_forms.md R104). -/
  | fromkoop
  /-- REVPOLY, form C0 (40_polynomial_forms.md R105). -/
  | revpoly
  /-- LDDEF, form C0 (41_table.md R121). -/
  | lddef
  /-- GENTAB, form C0 (41_table.md R123). -/
  | gentab
  /-- NEXT b, form CB: the byte operand `b` (42_update.md R142; 30_encoding.md R82). -/
  | next (b : Nat)
  /-- DSTEP b, form CB: the byte operand `b` (42_update.md R143; 30_encoding.md R82). -/
  | dstep (b : Nat)
  /-- START, form C0 (43_stream.md R161). -/
  | start
  /-- FEEDT k, form CN: the count `k` of bytes (43_stream.md R163; 30_encoding.md R83). -/
  | feedt (k : Nat)
  /-- FEEDD k, form CN: the count `k` of bytes (43_stream.md R164; 30_encoding.md R83). -/
  | feedd (k : Nat)
  /-- FINISH, form C0 (43_stream.md R166). -/
  | finish
deriving DecidableEq, Repr

end Sys2Proof
end

