-- ==== Sys2Proof/WellFormed.lean ====
section
/-! DEFINITION. Which commands have an encoding: "An operand outside its range (a byte above 255, a
count outside 1..8) has no encoding and is refused by an assembler; it is never wrapped"
(30_encoding.md R89). -/

namespace Sys2Proof

/-- A byte operand: 0 to 255 (30_encoding.md R82). -/
abbrev byteOperandOk (b : Nat) : Bool := decide (b < 256)

/-- A count: 1 to 8 (30_encoding.md R83). -/
abbrev countOk (k : Nat) : Bool := decide (1 ≤ k) && decide (k ≤ 8)

/-- The command's operands are in range, so that it has an encoding (30_encoding.md R89). -/
def Instr.wellFormed : Instr → Bool
  | .nop => true
  | .selw => true
  | .ones => true
  | .tokoop => true
  | .fromkoop => true
  | .revpoly => true
  | .lddef => true
  | .gentab => true
  | .next b => byteOperandOk b
  | .dstep b => byteOperandOk b
  | .start => true
  | .feedt k => countOk k
  | .feedd k => countOk k
  | .finish => true

end Sys2Proof
end

