-- ==== Sys2Proof/Decode.lean ====
section
/-! DEFINITION. The command word (30_encoding.md): its fields (R81), the decoder (R84 to R88), total on
every word and rejecting by name, and after it the encoder, written from the same tables (R84, R85, R89).
Every rejection is the command error ILLEGAL (R86). -/

namespace Sys2Proof

/-- Bits [7:0]: the operation code (30_encoding.md R81). -/
def opField (w : Word) : Byte := w.extractLsb' 0 8

/-- Bits [15:8]: the byte operand (30_encoding.md R81). -/
def imm8Field (w : Word) : Byte := w.extractLsb' 8 8

/-- Bits [18:16]: the byte count minus one (30_encoding.md R81). -/
def nm1Field (w : Word) : BitVec 3 := w.extractLsb' 16 3

/-- Bits [63:19]: reserved, must be 0 (30_encoding.md R81). -/
def reservedField (w : Word) : BitVec 45 := w.extractLsb' 19 45

/-- Why a word matches no row: the four cases of 30_encoding.md R86. -/
inductive DecodeReject where
  /-- `w[7:0]` is not an assigned code. -/
  | unassignedOp
  /-- `w[63:19]` is not 0. -/
  | reservedBits
  /-- A C0 or CN command has `w[15:8]` not 0. -/
  | unusedImm8
  /-- A C0 or CB command has `w[18:16]` not 0. -/
  | unusedNm1
deriving DecidableEq, Repr

/-- A command of form C0: both operand fields must be 0 (30_encoding.md R81, R85). -/
def decodeC0 (w : Word) (i : Instr) : Except DecodeReject Instr :=
  if imm8Field w ≠ 0 then .error .unusedImm8
  else if nm1Field w ≠ 0 then .error .unusedNm1
  else .ok i

/-- A command of form CB: NM1 must be 0; IMM8 is the byte operand (30_encoding.md R82, R85). -/
def decodeCB (w : Word) (mk : Nat → Instr) : Except DecodeReject Instr :=
  if nm1Field w ≠ 0 then .error .unusedNm1
  else .ok (mk (imm8Field w).toNat)

/-- A command of form CN: IMM8 must be 0; the count is NM1 + 1 (30_encoding.md R83, R85). -/
def decodeCN (w : Word) (mk : Nat → Instr) : Except DecodeReject Instr :=
  if imm8Field w ≠ 0 then .error .unusedImm8
  else .ok (mk ((nm1Field w).toNat + 1))

/-- The opcode map (30_encoding.md R84); every other code is unassigned (R87). -/
def decodeOp (w : Word) : Except DecodeReject Instr :=
  match opField w with
  | 0x00#8 => decodeC0 w .nop
  | 0x01#8 => decodeC0 w .selw
  | 0x02#8 => decodeC0 w .ones
  | 0x03#8 => decodeC0 w .tokoop
  | 0x04#8 => decodeC0 w .fromkoop
  | 0x05#8 => decodeC0 w .revpoly
  | 0x10#8 => decodeC0 w .lddef
  | 0x11#8 => decodeC0 w .gentab
  | 0x20#8 => decodeCB w .next
  | 0x21#8 => decodeCB w .dstep
  | 0x30#8 => decodeC0 w .start
  | 0x31#8 => decodeCN w .feedt
  | 0x32#8 => decodeCN w .feedd
  | 0x33#8 => decodeC0 w .finish
  | _ => .error .unassignedOp

/-- `Decode(w)` of 30_encoding.md R86: the one row `w` matches, or the reason it matches none. -/
def decode (w : Word) : Except DecodeReject Instr :=
  if reservedField w ≠ 0 then .error .reservedBits
  else decodeOp w

/-! ### The encoder -/

/-- A C0 word: the code alone (30_encoding.md R85). -/
def encodeC0 (op : Word) : Word := op

/-- A CB word: `(b << 8) OR op` (30_encoding.md R89). -/
def encodeCB (op : Word) (b : Nat) : Word := (BitVec.ofNat 64 b <<< 8) ||| op

/-- A CN word: `((k - 1) << 16) OR op` (30_encoding.md R89). -/
def encodeCN (op : Word) (k : Nat) : Word := (BitVec.ofNat 64 (k - 1) <<< 16) ||| op

/-- The word of a well-formed command (30_encoding.md R84, R89). -/
def encode : Instr → Word
  | .nop => encodeC0 0x00
  | .selw => encodeC0 0x01
  | .ones => encodeC0 0x02
  | .tokoop => encodeC0 0x03
  | .fromkoop => encodeC0 0x04
  | .revpoly => encodeC0 0x05
  | .lddef => encodeC0 0x10
  | .gentab => encodeC0 0x11
  | .next b => encodeCB 0x20 b
  | .dstep b => encodeCB 0x21 b
  | .start => encodeC0 0x30
  | .feedt k => encodeCN 0x31 k
  | .feedd k => encodeCN 0x32 k
  | .finish => encodeC0 0x33

/-! ### The opcode table as the spec prints it: match and mask -/

/-- One row of the opcode map with its match and mask (30_encoding.md R84, R85). -/
structure OpRow where
  mnemonic : String
  pattern : Word
  mask : Word
deriving DecidableEq, Repr

/-- `w AND mask = match` (30_encoding.md R85). -/
def OpRow.accepts (r : OpRow) (w : Word) : Bool := (w &&& r.mask) == r.pattern

/-- Mask of form C0 (30_encoding.md R85). -/
def maskC0 : Word := 0xFFFFFFFFFFFFFFFF
/-- Mask of form CB: IMM8 free (30_encoding.md R85). -/
def maskCB : Word := 0xFFFFFFFFFFFF00FF
/-- Mask of form CN: NM1 free (30_encoding.md R85). -/
def maskCN : Word := 0xFFFFFFFFFFF8FFFF

/-- The fourteen rows of 30_encoding.md R84, with the masks of R85. -/
def opRows : List OpRow :=
  [⟨"NOP", 0x00, maskC0⟩, ⟨"SELW", 0x01, maskC0⟩, ⟨"ONES", 0x02, maskC0⟩, ⟨"TOKOOP", 0x03, maskC0⟩,
   ⟨"FROMKOOP", 0x04, maskC0⟩, ⟨"REVPOLY", 0x05, maskC0⟩, ⟨"LDDEF", 0x10, maskC0⟩] ++
  [⟨"GENTAB", 0x11, maskC0⟩, ⟨"NEXT", 0x20, maskCB⟩, ⟨"DSTEP", 0x21, maskCB⟩, ⟨"START", 0x30, maskC0⟩,
   ⟨"FEEDT", 0x31, maskCN⟩, ⟨"FEEDD", 0x32, maskCN⟩, ⟨"FINISH", 0x33, maskC0⟩]

/-- The row a command belongs to (30_encoding.md R84). -/
def Instr.mnemonic : Instr → String
  | .nop => "NOP"
  | .selw => "SELW"
  | .ones => "ONES"
  | .tokoop => "TOKOOP"
  | .fromkoop => "FROMKOOP"
  | .revpoly => "REVPOLY"
  | .lddef => "LDDEF"
  | .gentab => "GENTAB"
  | .next _ => "NEXT"
  | .dstep _ => "DSTEP"
  | .start => "START"
  | .feedt _ => "FEEDT"
  | .feedd _ => "FEEDD"
  | .finish => "FINISH"

/-- The instruction the decoder reads from an instruction whose bits, numbered as
spec/opcode_table.json numbers them, are `w`; every bit at or above `nbits` is 0. -/
def decodeTableWord (nbits w : Nat) : Option Instr :=
  match decode (BitVec.ofNat 64 (w % 2 ^ nbits)) with
  | .ok i => some i
  | .error _ => none

end Sys2Proof
end

