-- ==== Sys2Proof/Machine/State.lean ====
section
/-! DEFINITION. The state of the block (10_state.md), the events of its port (20_memory.md), the reasons
a step can stop, and the state after reset (10_state.md R39; 70_reset_and_hazards.md R230). -/

namespace Sys2Proof.Machine

/-- The nine registers of 10_state.md R20, by name. -/
inductive Reg where
  | id
  | cfg
  | poly
  | init
  | acc
  | result
  | data
  | cmd
  | status
deriving DecidableEq, Repr

/-- The command errors (60_exceptions.md R202); code 0 stands for none, codes 6 to 15 are never produced. -/
inductive CmdError where
  /-- The command word matches no opcode row (30_encoding.md R86). -/
  | illegal
  /-- CFG.BITS is not legal (60_exceptions.md R203). -/
  | badBits
  /-- CFG.RESW is 5, 6 or 7, at FINISH (60_exceptions.md R204). -/
  | badResw
  /-- No default polynomial for CFG.BITS, at LDDEF (60_exceptions.md R205). -/
  | noDef
  /-- A table entry the command needs has `TV = 0`, at NEXT and FEEDT (60_exceptions.md R206). -/
  | tabUninit
deriving DecidableEq, Repr

/-- The lookup table RAM `T` with its valid bits `TV` (10_state.md R30, R31): one cell (index, value)
for each entry whose valid bit is 1, indexes strictly rising. An entry that is not listed has
`TV = 0`; its contents are unspecified and never observable, and are not held
(notes/assumptions/8.md). -/
abbrev Memory := List (Nat × Word)

/-- A host access (00_scope.md R13): byte address and size in bytes. The value of a write is the 64 bits
of an 8-byte access; an access of another size is a bus error whatever its value
(20_memory.md R52; notes/assumptions/13.md). -/
inductive Access where
  /-- `MemRead(addr, size)`. -/
  | read (addr size : Nat)
  /-- `MemWrite(addr, size, v)`. -/
  | write (addr size : Nat) (v : Word)
deriving DecidableEq, Repr

/-- What arrives at the port, in the port's order (20_memory.md R64; 70_reset_and_hazards.md R231). -/
inductive PortEvent where
  /-- A host access. -/
  | access (a : Access)
  /-- The reset input, asserted between two accesses. -/
  | reset
  /-- The reset input, asserted while the access `a` is in progress. -/
  | resetDuring (a : Access)
deriving DecidableEq, Repr

/-- The answer the master of an access gets. -/
inductive Response where
  /-- The value a read returns (20_memory.md R55, R60). -/
  | readData (v : Word)
  /-- A write that was performed, with the command it triggered (20_memory.md R65; 60_exceptions.md R201). -/
  | writeDone
  /-- An error response (60_exceptions.md R210); held only after `State.resumeAfter`. -/
  | errorResponse
deriving DecidableEq, Repr

/-- Why a step stops. The first five are the spec's bus errors, `BusError(addr)`: "A model treats a bus
error as a fault of the access" (60_exceptions.md R210); the block's state is unchanged. All are
raised by `step` for the access at the head of the port, none by a command, and all are safe. -/
inductive Fault where
  /-- An access of a size other than 8 bytes (20_memory.md R52). Safe. -/
  | badSize (addr : Nat)
  /-- A misaligned access (20_memory.md R53). Safe. -/
  | misaligned (addr : Nat)
  /-- A write to ID or RESULT (20_memory.md R57). Safe. -/
  | readOnlyRegister (addr : Nat)
  /-- An access at an offset in 0x048 to 0x7FF (20_memory.md R58). Safe. -/
  | reservedOffset (addr : Nat)
  /-- A host read of an entry whose valid bit is 0 (60_exceptions.md R211). Safe. -/
  | invalidEntry (addr : Nat)
  /-- An access at an address that is not the block's (20_memory.md R50; notes/assumptions/7.md). Safe. -/
  | outsideWindow (addr : Nat)
  /-- An access cut short by reset: the master gets no defined response (70_reset_and_hazards.md R231;
  93_implementation_defined.md U17). Safe. -/
  | cutByReset
deriving DecidableEq, Repr

/-- Why a term has no meaning. -/
inductive Refusal where
  /-- Raised by `exec` for a command the model gives no meaning yet: none is left. Safe. -/
  | notModelled (mnemonic : String)
  /-- Raised by a meaning for a term whose operand has no encoding (30_encoding.md R89: refused, never
  wrapped). `step` never raises it: a decoded command is well formed. Safe. -/
  | operandOutOfRange
deriving DecidableEq, Repr

/-- The state of the block (10_state.md R20 to R38), with the two parameters and the port. -/
@[ext]
structure State where
  /-- CFG.BITS, the CRC width (R22, R23). -/
  bits : BitVec 7
  /-- CFG.RESW, the result width code (R22, R24). -/
  resw : BitVec 3
  /-- POLY (R25). -/
  poly : Word
  /-- INIT (R26). -/
  init : Word
  /-- ACC, the accumulator: 64 bits held (R27). -/
  acc : Word
  /-- RESULT (R28). -/
  result : Word
  /-- DATA, up to eight input bytes (R29). -/
  data : Word
  /-- STATUS.ERR (R34). -/
  err : Bool
  /-- STATUS.ERRCODE (R35). -/
  errcode : BitVec 4
  /-- `T` and `TV` (R30, R31). -/
  table : Memory
  /-- Parameter BASE, in pages of 0x1000 bytes (20_memory.md R50); no step changes it. -/
  basePage : Nat
  /-- Parameter P_NARROW (R23); no step changes it. -/
  pNarrow : Narrow
  /-- What waits at the port, the next event first (20_memory.md R64). The model's own field. -/
  port : List PortEvent
  /-- The answer to the last access, if there was one. The model's own field. -/
  response : Option Response
deriving DecidableEq, Repr

/-- The outcome of a command or a step. -/
abbrev Result := Host.Outcome State Fault Refusal

/-- The block right after reset (10_state.md R39; 70_reset_and_hazards.md R230). The values of `basePage`,
`pNarrow`, `port` and `response` are the model's: DESIGN CHOICE, notes/assumptions/1.md, 2.md, 3.md, 5.md. -/
def State.reset : State where
  bits := 32
  resw := 0
  poly := 0
  init := 0
  acc := 0
  result := 0
  data := 0
  err := false
  errcode := 0
  table := []
  basePage := 0
  pNarrow := .accept
  port := []
  response := none

end Sys2Proof.Machine
end

