-- ==== Sys2Proof/Machine/Ops.lean ====
section
/-! DEFINITION. The named operations over the table RAM and the registers, and the block's one way of
taking an error (60_exceptions.md R201) and of recovering from it (R214). -/

namespace Sys2Proof.Machine

/-! ### Bytes of a word (20_memory.md R54) -/

/-- The byte at address `addr + k` of an access at `addr`: bits `[8k+7:8k]` of its value. -/
def byteAt (v : Word) (k : Nat) : Byte := v.extractLsb' (8 * k) 8

/-! ### The table RAM (10_state.md R30, R31; 20_memory.md R60) -/

/-- `T[n]` where `TV[n] = 1`; nothing where `TV[n] = 0`. -/
def Memory.readEntry : Memory → Nat → Option Word
  | [], _ => none
  | (k, v) :: rest, n => if k = n then some v else Memory.readEntry rest n

/-- `TV[n]` (10_state.md R31). -/
def Memory.tv (m : Memory) (n : Nat) : Bool := (m.readEntry n).isSome

/-- `T[n] <- v; TV[n] <- 1` (20_memory.md R60), keeping the indexes rising. -/
def Memory.writeEntry : Memory → Nat → Word → Memory
  | [], n, v => [(n, v)]
  | (k, u) :: rest, n, v =>
    if n < k then (n, v) :: (k, u) :: rest
    else if n = k then (n, v) :: rest
    else (k, u) :: Memory.writeEntry rest n v

/-- `for n in 0..255: T[n] <- f n; TV[n] <- 1` (41_table.md R123). The entries are distinct and the command
is atomic (20_memory.md R61), so the order of the writes is not observable; the fold writes entry 255
first, which keeps each write at the front of the list. (Irreducible: a comparison of two states is not to
run the loop.) -/
@[irreducible] def Memory.fill (m : Memory) (f : Nat → Word) : Memory :=
  (List.range 256).foldr (fun n t => Memory.writeEntry t n (f n)) m

/-- One byte of the table window at window offset `off`, little-endian (20_memory.md R51, R54). -/
def Memory.readByte (m : Memory) (off : Nat) : Option Byte :=
  if 0x800 ≤ off ∧ off < 0x1000 then
    (m.readEntry ((off - 0x800) / 8)).map fun v => byteAt v (off % 8)
  else none

/-- The canonical form: indexes strictly rising, each below 256. -/
abbrev Memory.wf (m : Memory) : Prop :=
  (m.map Prod.fst).Pairwise (· < ·) ∧ ∀ c ∈ m, c.1 < 256

/-! ### Register updates -/

/-- `x[RESULT] <- v` (10_state.md R28). -/
def State.setResult (s : State) (v : Word) : State := { s with result := v }

/-- `x[ACC] <- v`, all 64 bits (10_state.md R27). -/
def State.setAcc (s : State) (v : Word) : State := { s with acc := v }

/-- `x[POLY] <- v` (10_state.md R25). -/
def State.setPoly (s : State) (v : Word) : State := { s with poly := v }

/-- `x[INIT] <- v` (10_state.md R26). -/
def State.setInit (s : State) (v : Word) : State := { s with init := v }

/-- `x[DATA] <- v` (10_state.md R29). -/
def State.setData (s : State) (v : Word) : State := { s with data := v }

/-- `BITS <- v[6:0]; RESW <- v[10:8]`, stored as written, other bits ignored (10_state.md R22; 20_memory.md R56). -/
def State.setCfg (s : State) (v : Word) : State :=
  { s with bits := v.extractLsb' 0 7, resw := v.extractLsb' 8 3 }

/-- A new table RAM. -/
def State.setTable (s : State) (m : Memory) : State := { s with table := m }

/-! ### Errors (60_exceptions.md section 1) -/

/-- The code ERRCODE records (60_exceptions.md R202). -/
def CmdError.code : CmdError → BitVec 4
  | .illegal => 1
  | .badBits => 2
  | .badResw => 3
  | .noDef => 4
  | .tabUninit => 5

/-- `raise CmdError(code)`: ERRCODE records the first error, ERR is set, nothing else is written
(60_exceptions.md R201). -/
def State.raiseCmdError (s : State) (e : CmdError) : State :=
  { s with errcode := if s.err then s.errcode else e.code, err := true }

/-- The recovery action: ERR and ERRCODE cleared (60_exceptions.md R214; 10_state.md R34). -/
def State.clearError (s : State) : State := { s with err := false, errcode := 0 }

/-- A host write of `v` to STATUS: bit 0 clears, the other bits are ignored (10_state.md R34; 20_memory.md R56). -/
def State.writeStatus (s : State) (v : Word) : State :=
  if v.getLsbD 0 then s.clearError else s

/-- The outcome of a command that raises `e`: the CMD write completes normally (60_exceptions.md R201). -/
def cmdError (s : State) (e : CmdError) : Result := .next (s.raiseCmdError e)

/-! ### The port -/

/-- The next event of the port is taken and `r` is its answer (20_memory.md R64). -/
def State.answer (s : State) (r : Response) : State := { s with port := s.port.tail, response := some r }

/-- The reset input (70_reset_and_hazards.md R230): every piece of the block's state takes its reset value
(10_state.md R39). The parameters are not the block's state (10_state.md R38) and what still waits at
the port is the host's: both stay (notes/assumptions/9.md). -/
def State.resetBlock (s : State) : State :=
  { State.reset with basePage := s.basePage, pNarrow := s.pNarrow, port := s.port }

end Sys2Proof.Machine
end

