-- ==== Sys2Proof/Machine/Functions.lean ====
section
/-! DEFINITION. The CRC functions the commands compute (40_polynomial_forms.md to 42_update.md): the
accumulator width, the polynomial forms, the bit step, the table entry, the two one-byte steps and
their folds. All work on 64-bit words; `B` is the CRC width and `W` the accumulator width. -/

namespace Sys2Proof.Machine

/-- `zext_64(trunc_k(v))` (00_scope.md R13). -/
def trunc (k : Nat) (v : Word) : Word := (v.setWidth k).setWidth 64

/-- `SELW(B)`, the accumulator width, for a legal `B` (40_polynomial_forms.md R101). -/
def selw (B : Nat) : Nat :=
  if B ≤ 8 then 8 else if B ≤ 16 then 16 else if B ≤ 32 then 32 else 64

/-- `ones(B) = 2^B - 1`, defined arithmetically (40_polynomial_forms.md R102). -/
def ones (B : Nat) : Word := BitVec.ofNat 64 (2 ^ B - 1)

/-- `tok(B, p)`: normal form to Koopman form (40_polynomial_forms.md R103). -/
def toKoopman (B : Nat) (p : Word) : Word := ((p >>> 1) ||| ((1 : Word) <<< (B - 1))) &&& ones B

/-- `fromk(B, p)`: Koopman form to normal form (40_polynomial_forms.md R104). -/
def fromKoopman (B : Nat) (p : Word) : Word := ((p <<< 1) ||| 1) &&& ones B

/-- The loop of `rev`: `repeat B: a <- (a << 1) OR (q AND 1); q <- q >> 1` (40_polynomial_forms.md R105). -/
def revLoop : Nat → Word → Word → Word
  | 0, a, _ => a
  | n + 1, a, q => revLoop n ((a <<< 1) ||| (q &&& 1)) (q >>> 1)

/-- `rev(B, p)`: the bit-reversed form (40_polynomial_forms.md R105). -/
def rev (B : Nat) (p : Word) : Word := revLoop B 0 p

/-- `crcstep(v, r)`: shift first, then XOR where bit 0 was 1 (41_table.md R122). -/
def crcStep (v r : Word) : Word := if v.getLsbD 0 then (v >>> 1) ^^^ r else v >>> 1

/-- `crcstep` applied `n` times. -/
def crcSteps : Nat → Word → Word → Word
  | 0, v, _ => v
  | n + 1, v, r => crcSteps n (crcStep v r) r

/-- `step8(v, r)` (41_table.md R122). -/
def step8 (v r : Word) : Word := crcSteps 8 v r

/-- `tabentry(B, p, n)` (41_table.md R122). -/
def tabEntry (B : Nat) (p : Word) (n : Nat) : Word := step8 (BitVec.ofNat 64 n) (rev B p)

/-- The index of the entry the table step reads: `(c XOR zext_64(b)) AND 0xFF` (42_update.md R141). -/
def nextIndex (c : Word) (b : Byte) : Nat := ((c ^^^ b.setWidth 64) &&& 0xFF).toNat

/-- `next(c, b, W)`: the table-driven step of one byte (42_update.md R141). -/
def nextByte (m : Memory) (W : Nat) (c : Word) (b : Byte) : Except CmdError Word :=
  match m.readEntry (nextIndex c b) with
  | none => .error .tabUninit
  | some t => .ok (trunc W (t ^^^ (c >>> 8)))

/-- `dstep(c, b, B, p, W)`: the direct step of one byte (42_update.md R143). -/
def dstepByte (B : Nat) (p : Word) (W : Nat) (c : Word) (b : Byte) : Word :=
  trunc W (step8 (c ^^^ b.setWidth 64) (rev B p))

/-- The table-driven fold over bytes in order; the first invalid entry ends it (43_stream.md R163, R165). -/
def foldTable (m : Memory) (W : Nat) : Word → List Byte → Except CmdError Word
  | c, [] => .ok c
  | c, b :: rest =>
    match nextByte m W c b with
    | .error e => .error e
    | .ok c' => foldTable m W c' rest

/-- The direct fold over bytes in order (43_stream.md R164). -/
def foldDirect (B : Nat) (p : Word) (W : Nat) : Word → List Byte → Word
  | c, [] => c
  | c, b :: rest => foldDirect B p W (dstepByte B p W c b) rest

end Sys2Proof.Machine
end

