-- ==== Sys2Proof/Machine/Operands.lean ====
section
/-! DEFINITION. Every operand form of a command: the byte operand and the count of the command word
(30_encoding.md R82, R83), the CRC width with its legality check (10_state.md R23; 60_exceptions.md
R203), the accumulator read (10_state.md R27), the bytes of DATA (43_stream.md R162) and the result
width (10_state.md R24). -/

namespace Sys2Proof.Machine

/-- The byte operand of a CB command (30_encoding.md R82); a number that is no byte is refused, never
wrapped (R89). -/
def withByte (b : Nat) (k : Byte → Result) : Result :=
  if byteOperandOk b then k (BitVec.ofNat 8 b) else .refused .operandOutOfRange

/-- The count of a CN command, 1 to 8 (30_encoding.md R83); another number is refused (R89). -/
def withCount (n : Nat) (k : Result) : Result :=
  if countOk n then k else .refused .operandOutOfRange

/-- Legal widths: 1 to 64 under `accept`, 2 to 64 under `reject` (10_state.md R23). -/
def bitsLegal (n : Narrow) (B : Nat) : Bool :=
  match n with
  | .accept => decide (1 ≤ B) && decide (B ≤ 64)
  | .reject => decide (2 ≤ B) && decide (B ≤ 64)

/-- `B = CFG.BITS`. -/
def State.crcWidth (s : State) : Nat := s.bits.toNat

/-- CFG.BITS is legal (10_state.md R23). -/
def State.legal (s : State) : Bool := bitsLegal s.pNarrow s.crcWidth

/-- `if B not legal then raise CmdError(BADBITS)`, the first check of every command but NOP
(60_exceptions.md R203, R207). -/
def withBits (s : State) (k : Result) : Result :=
  if s.legal then k else cmdError s .badBits

/-- `W = SELW(B)` (40_polynomial_forms.md R101). -/
def State.accWidth (s : State) : Nat := selw s.crcWidth

/-- `c = zext_64(x[ACC][W-1:0])` (10_state.md R27). -/
def State.accValue (s : State) : Word := trunc s.accWidth s.acc

/-- The input bytes of a feed: `DATA[8i+7:8i]` for `i = 0, 1, ..., k-1` (43_stream.md R162). -/
def dataBytes (v : Word) (k : Nat) : List Byte := (List.range k).map (byteAt v)

/-- The result width `R` that RESW selects; 5, 6 and 7 are reserved (10_state.md R24; 43_stream.md R166). -/
def resultWidth (resw : BitVec 3) (W : Nat) : Option Nat :=
  match resw with
  | 0#3 => some W
  | 1#3 => some 8
  | 2#3 => some 16
  | 3#3 => some 32
  | 4#3 => some 64
  | _ => none

end Sys2Proof.Machine
end

