-- ==== Sys2Proof/Machine/Flags.lean ====
section
/-! DEFINITION. The fields a host read computes: STATUS (10_state.md R33 to R36) and CFG (R22). -/

namespace Sys2Proof.Machine

/-- STATUS.TFULL: `AND over n in 0..255 of TV[n]` (10_state.md R36). -/
@[irreducible] def tfull (m : Memory) : Bool := (List.range 256).all fun n => Memory.tv m n

/-- A flag as the bit 0 of a word. -/
def flagBit (b : Bool) : Word := if b then 1 else 0

/-- What a read of STATUS returns (20_memory.md R55):
`zext_64(TFULL) << 16 OR zext_64(ERRCODE) << 8 OR zext_64(ERR)`. -/
def State.statusWord (s : State) : Word :=
  (flagBit (tfull s.table) <<< 16) ||| (s.errcode.setWidth 64 <<< 8) ||| flagBit s.err

/-- What a read of CFG returns (20_memory.md R55): `zext_64(RESW) << 8 OR zext_64(BITS)`. -/
def State.cfgWord (s : State) : Word := (s.resw.setWidth 64 <<< 8) ||| s.bits.setWidth 64

end Sys2Proof.Machine
end

