-- ==== Sys2Proof/Machine/ControlCommands.lean ====
section
/-! DEFINITION. Interface control (44_control.md): NOP. -/

namespace Sys2Proof.Machine

/-- NOP (44_control.md R180): nothing, whatever CFG holds. -/
def execNop (s : State) : Result := .next s

end Sys2Proof.Machine
end

