-- ==== Sys2Proof/Machine/PolynomialForms.lean ====
section
/-! DEFINITION. Type selection and polynomial forms (40_polynomial_forms.md): each command checks BITS,
then writes RESULT and nothing else (R100). -/

namespace Sys2Proof.Machine

/-- SELW (40_polynomial_forms.md R101). -/
def execSelw (s : State) : Result :=
  withBits s (.next (s.setResult (BitVec.ofNat 64 (selw s.crcWidth))))

/-- ONES (40_polynomial_forms.md R102). -/
def execOnes (s : State) : Result :=
  withBits s (.next (s.setResult (ones s.crcWidth)))

/-- TOKOOP (40_polynomial_forms.md R103). -/
def execTokoop (s : State) : Result :=
  withBits s (.next (s.setResult (toKoopman s.crcWidth s.poly)))

/-- FROMKOOP (40_polynomial_forms.md R104). -/
def execFromkoop (s : State) : Result :=
  withBits s (.next (s.setResult (fromKoopman s.crcWidth s.poly)))

/-- REVPOLY (40_polynomial_forms.md R105). -/
def execRevpoly (s : State) : Result :=
  withBits s (.next (s.setResult (rev s.crcWidth s.poly)))

end Sys2Proof.Machine
end

