-- ==== Sys2Proof/Machine/StreamCommands.lean ====
section
/-! DEFINITION. The streaming accumulator (43_stream.md): START, FEEDT, FEEDD, FINISH. -/

namespace Sys2Proof.Machine

/-- START (43_stream.md R161): INIT truncated to `W` bits, not to BITS. -/
def execStart (s : State) : Result :=
  withBits s (.next (s.setAcc (trunc s.accWidth s.init)))

/-- FEEDT k (43_stream.md R163): all or nothing (R165). -/
def execFeedt (k : Nat) (s : State) : Result :=
  withCount k <| withBits s <|
    match foldTable s.table s.accWidth s.accValue (dataBytes s.data k) with
    | .ok c => .next (s.setAcc c)
    | .error e => cmdError s e

/-- FEEDD k (43_stream.md R164). -/
def execFeedd (k : Nat) (s : State) : Result :=
  withCount k <| withBits s <|
    .next (s.setAcc (foldDirect s.crcWidth s.poly s.accWidth s.accValue (dataBytes s.data k)))

/-- FINISH (43_stream.md R166): BADBITS, then BADRESW; ACC is left alone. -/
def execFinish (s : State) : Result :=
  withBits s <|
    match resultWidth s.resw s.accWidth with
    | some R => .next (s.setResult (trunc R s.accValue))
    | none => cmdError s .badResw

end Sys2Proof.Machine
end

