-- ==== Sys2Proof/Machine/TableCommands.lean ====
section
/-! DEFINITION. Table generation (41_table.md): LDDEF and GENTAB. -/

namespace Sys2Proof.Machine

/-- The default polynomial of a width: CRC16-IBM and CRC32-IEEE only (41_table.md R121). -/
def defaultPoly (B : Nat) : Option Word :=
  if B = 16 then some 0x8005 else if B = 32 then some 0x04C11DB7 else none

/-- LDDEF (41_table.md R121). -/
def execLddef (s : State) : Result :=
  withBits s <|
    match defaultPoly s.crcWidth with
    | some p => .next (s.setPoly p)
    | none => cmdError s .noDef

/-- GENTAB (41_table.md R123): all 256 entries, all valid bits. -/
def execGentab (s : State) : Result :=
  withBits s (.next (s.setTable (Memory.fill s.table (tabEntry s.crcWidth s.poly))))

end Sys2Proof.Machine
end

