-- ==== Sys2Proof/Machine/UpdateCommands.lean ====
section
/-! DEFINITION. Incremental update of one byte (42_update.md): NEXT and DSTEP. -/

namespace Sys2Proof.Machine

/-- NEXT b (42_update.md R142): TABUNINIT leaves ACC unchanged. -/
def execNext (b : Nat) (s : State) : Result :=
  withByte b fun byte =>
    withBits s <|
      match nextByte s.table s.accWidth s.accValue byte with
      | .ok c => .next (s.setAcc c)
      | .error e => cmdError s e

/-- DSTEP b (42_update.md R143). -/
def execDstep (b : Nat) (s : State) : Result :=
  withByte b fun byte =>
    withBits s (.next (s.setAcc (dstepByte s.crcWidth s.poly s.accWidth s.accValue byte)))

end Sys2Proof.Machine
end

