-- ==== Sys2Proof/Machine/Dispatch.lean ====
section
/-! DEFINITION. One arm for each command (30_encoding.md R84). -/

namespace Sys2Proof.Machine

def exec (i : Instr) (s : State) : Host.Outcome State Fault Refusal :=
  match i with
  | .nop => Sys2Proof.Machine.execNop s
  | .selw => Sys2Proof.Machine.execSelw s
  | .ones => Sys2Proof.Machine.execOnes s
  | .tokoop => Sys2Proof.Machine.execTokoop s
  | .fromkoop => Sys2Proof.Machine.execFromkoop s
  | .revpoly => Sys2Proof.Machine.execRevpoly s
  | .lddef => Sys2Proof.Machine.execLddef s
  | .gentab => Sys2Proof.Machine.execGentab s
  | .next b => Sys2Proof.Machine.execNext b s
  | .dstep b => Sys2Proof.Machine.execDstep b s
  | .start => Sys2Proof.Machine.execStart s
  | .feedt k => Sys2Proof.Machine.execFeedt k s
  | .feedd k => Sys2Proof.Machine.execFeedd k s
  | .finish => Sys2Proof.Machine.execFinish s

end Sys2Proof.Machine
end

