-- ==== Sys2Proof/Machine/Port.lean ====
section
/-! DEFINITION. The host port (20_memory.md): the address map, register and table reads and writes, the
execution of a command word (30_encoding.md R80) and the performance of one access. -/

namespace Sys2Proof.Machine

/-! ### The address map (20_memory.md R50, R51; 10_state.md R20) -/

/-- BASE, a multiple of 0x1000 by construction (20_memory.md R50). -/
def State.base (s : State) : Nat := 0x1000 * s.basePage

/-- The value ID always reads (10_state.md R21). -/
def idValue : Word := 0x0000000143524345

/-- The byte offset of a register from BASE (10_state.md R20). -/
def Reg.offset : Reg → Nat
  | .id => 0x000
  | .cfg => 0x008
  | .poly => 0x010
  | .init => 0x018
  | .acc => 0x020
  | .result => 0x028
  | .data => 0x030
  | .cmd => 0x038
  | .status => 0x040

/-- What stands at an aligned offset of the window. -/
inductive Target where
  /-- A register (20_memory.md R51). -/
  | reg (r : Reg)
  /-- The table entry `T[n]`. -/
  | entry (n : Nat)
  /-- The reserved hole 0x048 to 0x7FF. -/
  | hole
deriving DecidableEq, Repr

/-- The register at an aligned offset below 0x048, if there is one (10_state.md R20). -/
def regAt (off : Nat) : Option Reg :=
  match off with
  | 0x000 => some .id
  | 0x008 => some .cfg
  | 0x010 => some .poly
  | 0x018 => some .init
  | 0x020 => some .acc
  | 0x028 => some .result
  | 0x030 => some .data
  | 0x038 => some .cmd
  | 0x040 => some .status
  | _ => none

/-- The layout of the window (20_memory.md R51), for an aligned offset below 0x1000. -/
def target (off : Nat) : Target :=
  if 0x800 ≤ off then .entry ((off - 0x800) / 8)
  else match regAt off with
    | some r => .reg r
    | none => .hole

/-- The port's checks of an access (20_memory.md R50, R52, R53): what it reaches, or the fault it ends in.
Which of several causes is named is the model's (60_exceptions.md R212; notes/assumptions/6.md). -/
def locate (s : State) (addr size : Nat) : Except Fault Target :=
  if addr < s.base ∨ s.base + 0x1000 ≤ addr then .error (.outsideWindow addr)
  else if size ≠ 8 then .error (.badSize addr)
  else if (addr - s.base) % 8 ≠ 0 then .error (.misaligned addr)
  else .ok (target (addr - s.base))

/-! ### Reads and writes -/

/-- What a register reads as, with no side effect (20_memory.md R55). -/
def State.readReg (s : State) : Reg → Word
  | .id => idValue
  | .cfg => s.cfgWord
  | .poly => s.poly
  | .init => s.init
  | .acc => s.acc
  | .result => s.result
  | .data => s.data
  | .cmd => 0
  | .status => s.statusWord

/-- The value a read of `t` returns, or its fault (20_memory.md R55, R58, R60). -/
def State.readTarget (s : State) (addr : Nat) : Target → Except Fault Word
  | .reg r => .ok (s.readReg r)
  | .entry n =>
    match s.table.readEntry n with
    | some v => .ok v
    | none => .error (.invalidEntry addr)
  | .hole => .error (.reservedOffset addr)

/-- `Execute(w)` (30_encoding.md R80): a word that matches no row raises ILLEGAL. -/
def execute (w : Word) (s : State) : Result :=
  match decode w with
  | .ok i => exec i s
  | .error _ => cmdError s .illegal

/-- A write of `v` to a register (20_memory.md R56, R57). -/
def State.writeReg (s : State) (addr : Nat) (v : Word) : Reg → Result
  | .id => .fault (.readOnlyRegister addr)
  | .cfg => .next (s.setCfg v)
  | .poly => .next (s.setPoly v)
  | .init => .next (s.setInit v)
  | .acc => .next (s.setAcc v)
  | .result => .fault (.readOnlyRegister addr)
  | .data => .next (s.setData v)
  | .cmd => execute v s
  | .status => .next (s.writeStatus v)

/-- A write of `v` to `t` (20_memory.md R56 to R58, R60). -/
def State.writeTarget (s : State) (addr : Nat) (v : Word) : Target → Result
  | .reg r => s.writeReg addr v r
  | .entry n => .next (s.setTable (s.table.writeEntry n v))
  | .hole => .fault (.reservedOffset addr)

/-- One access, performed completely (20_memory.md R64, R65). A read returns its value in `response`. -/
def perform (s : State) : Access → Result
  | .read addr size =>
    match locate s addr size with
    | .error f => .fault f
    | .ok t =>
      match s.readTarget addr t with
      | .error f => .fault f
      | .ok v => .next (s.answer (.readData v))
  | .write addr size v =>
    match locate s addr size with
    | .error f => .fault f
    | .ok t => (s.answer .writeDone).writeTarget addr v t

/-- One event of the port. With none waiting, the block keeps its state (60_exceptions.md R221;
70_reset_and_hazards.md R232); reset takes effect between accesses (R231). -/
def serve (s : State) : Result :=
  match s.port with
  | [] => .next s
  | .access a :: _ => perform s a
  | .reset :: rest => .next { s.resetBlock with port := rest }
  | .resetDuring _ :: _ => .fault .cutByReset

/-- The state in which the port accepts its next event after a step that ended in a fault: a bus error
changes no state of the block, STATUS included (60_exceptions.md R210); an access cut short by reset
leaves the reset state (70_reset_and_hazards.md R231). `step` itself stops at the fault; this says how
a master that goes on finds the block (notes/assumptions/6.md, 10.md). -/
def State.resumeAfter (s : State) : State :=
  match s.port with
  | [] => s
  | .resetDuring _ :: rest => { s.resetBlock with port := rest }
  | .access _ :: _ => s.answer .errorResponse
  | .reset :: rest => { s.resetBlock with port := rest }

/-! ### Placing a command at the port -/

/-- The host's write of the command word `w` to CMD (30_encoding.md R89: `WR CMD, w`). -/
def State.cmdWrite (s : State) (w : Word) : PortEvent :=
  .access (.write (s.base + Reg.cmd.offset) 8 w)

/-- The same state with `e` the next event of the port. -/
def State.pushEvent (s : State) (e : PortEvent) : State := { s with port := e :: s.port }

end Sys2Proof.Machine
end

