-- ==== Sys2Proof/Machine/Step.lean ====
section
/-! DEFINITION. The step of the machine: one event of the port (20_memory.md R64). -/

namespace Sys2Proof.Machine

/-- One step: the next event of the port, with the command it triggers. -/
def step (s : State) : Host.Outcome State Fault Refusal := serve s

/-- `s` with the command word `w` (its bits at or above `nbits` are 0) as the next thing the port takes: a
host write to CMD. It stands for the host that writes the command (notes/assumptions/4.md). -/
def State.withFetchWord (s : State) (nbits w : Nat) : State :=
  s.pushEvent (s.cmdWrite (BitVec.ofNat 64 (w % 2 ^ nbits)))

end Sys2Proof.Machine
end

