-- ==== Sys2Proof/Machine/Assembler.lean ====
section
/-! DEFINITION. The assembler syntax and the pseudo-instructions (30_encoding.md R89, R90): a line is a
sequence of host accesses. A line with an operand outside its range has no encoding and is refused,
never wrapped (R89). -/

namespace Sys2Proof.Machine

/-- One line of a program (30_encoding.md R89, R90). -/
inductive AsmLine where
  /-- `WR <reg>, <v>`. -/
  | wr (r : Reg) (v : Word)
  /-- `RD <reg>`. -/
  | rd (r : Reg)
  /-- `WRT <n>, <v>`. -/
  | wrt (n : Nat) (v : Word)
  /-- `RDT <n>`. -/
  | rdt (n : Nat)
  /-- A command of any form. -/
  | command (i : Instr)
  /-- `CLRERR`. -/
  | clrerr
  /-- `SETCFG <bits>, <resw>`. -/
  | setcfg (bits resw : Word)
  /-- `FEEDT.B <b0>, ...`. -/
  | feedtBytes (bs : List Nat)
  /-- `FEEDD.B <b0>, ...`. -/
  | feeddBytes (bs : List Nat)
  /-- `LDTAB <v0>, ..., <v255>`. -/
  | ldtab (vs : List Word)
deriving DecidableEq, Repr

/-- `b0 OR (b1 << 8) OR ...` (30_encoding.md R90). -/
def packBytes : List Nat → Word
  | [] => 0
  | b :: rest => BitVec.ofNat 64 b ||| (packBytes rest <<< 8)

/-- `MemWrite(BASE + off(<reg>), 8, v)` (30_encoding.md R89). -/
def asmWriteReg (base : Nat) (r : Reg) (v : Word) : Access := .write (base + r.offset) 8 v

/-- `MemWrite(BASE + 0x800 + 8n, 8, v)` (30_encoding.md R89). -/
def asmWriteEntry (base n : Nat) (v : Word) : Access := .write (base + 0x800 + 8 * n) 8 v

/-- The two accesses of a byte feed: the DATA write, then the command (30_encoding.md R90). -/
def asmFeed (base : Nat) (bs : List Nat) (i : Instr) : Option (List Access) :=
  if bs.all (byteOperandOk ·) && i.wellFormed then
    some [asmWriteReg base .data (packBytes bs), asmWriteReg base .cmd (encode i)]
  else none

/-- `WRT n, v0`, `WRT n+1, v1`, ..., in order. -/
def asmTableFrom (base : Nat) : Nat → List Word → List Access
  | _, [] => []
  | n, v :: rest => asmWriteEntry base n v :: asmTableFrom base (n + 1) rest

/-- The accesses a line stands for, or nothing where an operand is out of range (30_encoding.md R89, R90;
notes/assumptions/15.md). -/
def assemble (base : Nat) : AsmLine → Option (List Access)
  | .wr r v => some [asmWriteReg base r v]
  | .rd r => some [.read (base + r.offset) 8]
  | .wrt n v => if n < 256 then some [asmWriteEntry base n v] else none
  | .rdt n => if n < 256 then some [.read (base + 0x800 + 8 * n) 8] else none
  | .command i => if i.wellFormed then some [asmWriteReg base .cmd (encode i)] else none
  | .clrerr => some [asmWriteReg base .status 1]
  | .setcfg bits resw => some [asmWriteReg base .cfg ((resw <<< 8) ||| bits)]
  | .feedtBytes bs => asmFeed base bs (.feedt bs.length)
  | .feeddBytes bs => asmFeed base bs (.feedd bs.length)
  | .ldtab vs => if vs.length = 256 then some (asmTableFrom base 0 vs) else none

/-- The port events of a program, line after line; nothing where a line is refused. -/
def assembleAll (base : Nat) : List AsmLine → Option (List PortEvent)
  | [] => some []
  | l :: rest =>
    match assemble base l, assembleAll base rest with
    | some as, some es => some (as.map .access ++ es)
    | _, _ => none

end Sys2Proof.Machine
end

