-- ==== Sys2Proof/Safety.lean ====
section
/-! DEFINITION. The terms the statements use: the invariant of the state, what a state keeps from
another (frames), and the safe outcomes of a step. -/

namespace Sys2Proof.Machine

/-- The state's invariant: the table RAM is in canonical form; ERRCODE is 0 exactly when ERR is 0
(10_state.md R35); the codes 6 to 15 are never produced (60_exceptions.md R202). -/
def State.Inv (s : State) : Prop :=
  s.table.wf ∧ (s.errcode = 0 ↔ s.err = false) ∧ s.errcode.toNat ≤ 5

/-- A step that ends in a next state: no access of the run was a fault. -/
def SafeStep (s : State) : Prop := ∃ t, step s = .next t

/-- The parameters and the port are as before: no command touches them. -/
def KeepsEnvironment (s t : State) : Prop :=
  t.basePage = s.basePage ∧ t.pNarrow = s.pNarrow ∧ t.port = s.port ∧ t.response = s.response

/-- STATUS.ERR and STATUS.ERRCODE are as before. -/
def KeepsError (s t : State) : Prop := t.err = s.err ∧ t.errcode = s.errcode

/-- The registers the host alone writes are as before: CFG, INIT, DATA. -/
def KeepsHostRegisters (s t : State) : Prop :=
  t.bits = s.bits ∧ t.resw = s.resw ∧ t.init = s.init ∧ t.data = s.data

/-- Every entry of the table RAM, its valid bit and every byte of it (20_memory.md R54) reads as before. -/
def KeepsTable (s t : State) : Prop :=
  (∀ n, t.table.readEntry n = s.table.readEntry n) ∧
  (∀ off, t.table.readByte off = s.table.readByte off)

/-- The state an outcome goes on to, if it is a next state. -/
def nextState? : Result → Option State
  | .next t => some t
  | .fault _ => none
  | .refused _ => none

/-- The fault an outcome ends in, if it is one. -/
def fault? : Result → Option Fault
  | .next _ => none
  | .fault f => some f
  | .refused _ => none

/-! ### The spec's own words, said again for the statements, without the definitions the step calls -/

/-- CFG.BITS is legal: 1 to 64, and not 1 under `reject` (10_state.md R23). -/
def State.LegalBits (s : State) : Prop :=
  1 ≤ s.bits.toNat ∧ s.bits.toNat ≤ 64 ∧ (s.pNarrow = .reject → s.bits.toNat ≠ 1)

/-- `s` after a command error with this code: ERRCODE keeps the first error, ERR is 1, nothing else is
written (60_exceptions.md R201). -/
def State.raised (s : State) (code : BitVec 4) : State :=
  { s with errcode := if s.err = true then s.errcode else code, err := true }

/-- The low `k` bits of `v`, as a 64-bit value: `v mod 2^k`. -/
def lowBits (k : Nat) (v : Word) : Word := BitVec.ofNat 64 (v.toNat % 2 ^ k)

/-- Input byte `i` of DATA: `DATA[8i+7:8i]` (10_state.md R29). -/
def State.dataByte (s : State) (i : Nat) : Byte := s.data.extractLsb' (8 * i) 8

/-- The index of the table entry a step from `c` with the byte `b` reads: the low byte of
`c XOR zext_64(b)` (42_update.md R141). -/
def entryIndex (c : Word) (b : Byte) : Nat := (c ^^^ b.setWidth 64).toNat % 256

/-- The next event of the port is the host access `a`, with `rest` behind it. -/
def State.Receives (s : State) (a : Access) (rest : List PortEvent) : Prop :=
  s.port = .access a :: rest

/-- Feeds one after the other: each writes DATA and then issues `feed k` (43_stream.md R160). -/
def State.feedAll (feed : Nat → Instr) : State → List (Word × Nat) → Option State
  | s, [] => some s
  | s, (d, k) :: rest =>
    (nextState? (exec (feed k) { s with data := d })).bind fun t => State.feedAll feed t rest

/-- A whole fold: START, the feeds, FINISH (43_stream.md R160). -/
def State.wholeFold (s : State) (feed : Nat → Instr) (feeds : List (Word × Nat)) : Option State :=
  (nextState? (exec .start s)).bind fun t =>
    (t.feedAll feed feeds).bind fun u => nextState? (exec .finish u)

end Sys2Proof.Machine
end

