-- ==== Sys2Proof/Certificates/Slice0/Obligations.lean ====
section
/-! DEFINITION. The statements for the provers, from the numbered rules of spec/. A statement about every
state holds for every value of the parameters BASE and P_NARROW, which are fields of the state. -/

open Sys2Proof Sys2Proof.Machine

/-! ### Reset (70_reset_and_hazards.md) -/

/-- R230: reset, from any state, sets every piece of state to its reset value; power-up is a reset. -/
def Obligations.ResetSetsEveryRegister : Prop :=
  (∀ t : State, t = State.reset ∨ (∃ s rest, s.port = .reset :: rest ∧ step s = .next t) →
    t.bits = 32 ∧ t.resw = 0 ∧ t.poly = 0 ∧ t.init = 0 ∧ t.acc = 0 ∧ t.result = 0 ∧ t.data = 0 ∧
    t.err = false ∧ t.errcode = 0 ∧ ∀ n, t.table.readEntry n = none) ∧
  (∀ (s : State) (rest : List PortEvent), s.port = .reset :: rest → ∃ t, step s = .next t)

/-- R233, with NOP (R180) and GENTAB (R123), which it does not name: right after reset every command works but
NEXT and FEEDT, which raise TABUNINIT, and host reads of the table window are bus errors. -/
def Obligations.CommandsRightAfterReset : Prop :=
  (∀ i : Instr, i ∈ [Instr.nop, .selw, .ones, .tokoop, .fromkoop, .revpoly, .lddef, .gentab, .start, .finish] →
    ∃ t, exec i State.reset = .next t ∧ t.err = false ∧ t.errcode = 0) ∧
  (∀ b < 256, ∃ t, exec (.dstep b) State.reset = .next t ∧ t.err = false ∧ t.errcode = 0) ∧
  (∀ k, 1 ≤ k → k ≤ 8 → ∃ t, exec (.feedd k) State.reset = .next t ∧ t.err = false ∧ t.errcode = 0) ∧
  (∀ b < 256, exec (.next b) State.reset = .next (State.reset.raised 5)) ∧
  (∀ k, 1 ≤ k → k ≤ 8 → exec (.feedt k) State.reset = .next (State.reset.raised 5)) ∧
  (∀ n < 256, ∀ (s : State) (rest : List PortEvent), s.table = State.reset.table →
    s.Receives (.read (s.base + 0x800 + 8 * n) 8) rest →
    step s = .fault (.invalidEntry (s.base + 0x800 + 8 * n)))

/-- R231: an access cut short by reset is a fault (treatment of 93_implementation_defined.md U17), and the
block goes on from the reset state. That the step stops there, and that the parameters and what waits at
the port stay, are the model's choices (notes/assumptions/9.md, 10.md). -/
def Obligations.AccessCutShortByReset : Prop :=
  ∀ (s : State) (a : Access) (rest : List PortEvent), s.port = .resetDuring a :: rest →
    step s = .fault .cutByReset ∧
    s.resumeAfter = { State.reset with basePage := s.basePage, pNarrow := s.pNarrow, port := rest }

/-! ### Encoding (30_encoding.md) -/

/-- Words written out from the encoding tables of R84 and R89, one or more of every family. -/
def Obligations.SpecWordsDecode : Prop :=
  decode 0x0000000000000000 = .ok .nop ∧ decode 0x0000000000000003 = .ok .tokoop ∧
  decode 0x0000000000000011 = .ok .gentab ∧ decode 0x0000000000003920 = .ok (.next 0x39) ∧
  decode 0x0000000000000121 = .ok (.dstep 1) ∧ decode 0x0000000000030031 = .ok (.feedt 4) ∧
  decode 0x0000000000070032 = .ok (.feedd 8) ∧ decode 0x0000000000000033 = .ok .finish

/-- Every well-formed command, with every operand, is read back from its word. -/
def Obligations.DecodeOfEncode : Prop :=
  ∀ i : Instr, i.wellFormed = true → decode (encode i) = .ok i

/-- A word has one meaning: what it decodes to is well formed and encodes to that word again. -/
def Obligations.EncodeOfDecode : Prop :=
  ∀ (w : Word) (i : Instr), decode w = .ok i → i.wellFormed = true ∧ encode i = w

/-- R85 with R84: the decoder reads a command exactly where the word satisfies its row's match and mask, and
no word satisfies two rows. -/
def Obligations.DecodeFollowsMatchAndMask : Prop :=
  (∀ (w : Word) (i : Instr), decode w = .ok i →
    ∃ r ∈ opRows, r.mnemonic = i.mnemonic ∧ w &&& r.mask = r.pattern) ∧
  (∀ (w : Word) (r : OpRow), r ∈ opRows → w &&& r.mask = r.pattern →
    ∃ i, decode w = .ok i ∧ i.mnemonic = r.mnemonic) ∧
  (∀ (w : Word) (r q : OpRow), r ∈ opRows → q ∈ opRows →
    w &&& r.mask = r.pattern → w &&& q.mask = q.pattern → r = q)

/-- R86: ILLEGAL is raised exactly in the four cases the rule lists; every other word satisfies the match and
mask of exactly one row, and runs that row's command. -/
def Obligations.IllegalExactlyWhenNoRowMatches : Prop :=
  ∀ (w : Word) (s : State),
    let op := (w.extractLsb' 0 8).toNat
    let illegal : Prop :=
      op ∉ [0x00, 0x01, 0x02, 0x03, 0x04, 0x05, 0x10, 0x11, 0x20, 0x21, 0x30, 0x31, 0x32, 0x33] ∨
      w.extractLsb' 19 45 ≠ 0 ∨
      (op ∉ [0x20, 0x21] ∧ w.extractLsb' 8 8 ≠ 0) ∨
      (op ∉ [0x31, 0x32] ∧ w.extractLsb' 16 3 ≠ 0)
    (illegal → execute w s = .next (s.raised 1)) ∧
    (¬ illegal → ∃ i, decode w = .ok i ∧ i.wellFormed = true ∧ execute w s = exec i s ∧
      ∃ r ∈ opRows, r.mnemonic = i.mnemonic ∧ w &&& r.mask = r.pattern ∧
        ∀ q ∈ opRows, w &&& q.mask = q.pattern → q = r)

/-! ### The step -/

/-- A step runs the decoded command: a host write of `w` to CMD at the head of the port is `exec` of the
command `w` decodes to, with the access taken from the port and answered. `withFetchWord` places exactly
such a write. -/
def Obligations.StepRunsDecodedCommand : Prop :=
  (∀ (s : State) (w : Word) (i : Instr) (rest : List PortEvent), decode w = .ok i →
    s.Receives (.write (s.base + 0x038) 8 w) rest →
    step s = exec i { s with port := rest, response := some .writeDone }) ∧
  (∀ (s : State) (w : Word) (i : Instr), decode w = .ok i →
    step (s.withFetchWord 64 w.toNat) = exec i { s with response := some .writeDone })

/-- A CMD write whose word matches no row completes normally with ILLEGAL raised. -/
def Obligations.StepRaisesIllegal : Prop :=
  ∀ (s : State) (w : Word) (rest : List PortEvent), (∀ i, decode w ≠ .ok i) →
    s.Receives (.write (s.base + 0x038) 8 w) rest →
    step s = .next (({ s with port := rest, response := some .writeDone } : State).raised 1)

/-- The port performs one event a step, the one at its head (R64), and the later ones stay as they are. The
queue is a field of the model (notes/assumptions/3.md, 4.md). The first clause covers a reset event too:
that what waits behind a reset stays is the model's choice (notes/assumptions/9.md). -/
def Obligations.StepTakesTheHeadOfThePort : Prop :=
  (∀ s t : State, step s = .next t → t.port = s.port.tail) ∧
  (∀ s : State, s.port = [] → step s = .next s)

/-- No step changes the parameters BASE and P_NARROW: they are fields of the model (notes/assumptions/1.md,
2.md) and stay at a reset (9.md). -/
def Obligations.StepKeepsParameters : Prop :=
  ∀ s t : State, step s = .next t → t.basePage = s.basePage ∧ t.pNarrow = s.pNarrow

/-- The invariant holds after reset. Its first part, the canonical form of the table list, is the model's
choice of form (notes/assumptions/8.md); the other two are of R35 and R202. -/
def Obligations.ResetMeetsInvariant : Prop := State.reset.Inv

/-- Every step keeps the invariant: canonical table (the model's choice of form, notes/assumptions/8.md),
ERRCODE 0 exactly when ERR is 0 (R35), no code above 5 (R202). -/
def Obligations.StepKeepsInvariant : Prop :=
  ∀ s t : State, s.Inv → step s = .next t → t.Inv

/-- R31, R126: a step that is no reset keeps every valid bit; and an entry whose valid bit or value it changes
is one a host write stored to, or one of the table a GENTAB generated. -/
def Obligations.TableChangesOnlyAsStated : Prop :=
  ∀ (s t : State) (n : Nat), (∀ rest, s.port ≠ .reset :: rest) → step s = .next t →
    ((s.table.readEntry n).isSome = true → (t.table.readEntry n).isSome = true) ∧
    (t.table.readEntry n ≠ s.table.readEntry n → ∃ rest,
      (∃ v, s.Receives (.write (s.base + 0x800 + 8 * n) 8 v) rest ∧ t.table.readEntry n = some v) ∨
      (s.Receives (.write (s.base + 0x038) 8 0x11) rest ∧ s.LegalBits ∧
        t.table.readEntry n = some (tabEntry s.bits.toNat s.poly n)))

/-! ### Errors (60_exceptions.md) -/

/-- R203: BADBITS, for every command but NOP, when CFG.BITS is 0, is 65 to 127, or is 1 while P_NARROW is
reject. -/
def Obligations.BadBitsRaised : Prop :=
  ∀ (s : State) (i : Instr), i.wellFormed = true → i ≠ .nop →
    (s.bits.toNat = 0 ∨ (65 ≤ s.bits.toNat ∧ s.bits.toNat ≤ 127) ∨
      (s.bits.toNat = 1 ∧ s.pNarrow = .reject)) →
    exec i s = .next (s.raised 2)

/-- R201: a command either leaves ERR and ERRCODE alone or changes nothing but them, with one of the five
codes; it does the same whatever ERR and ERRCODE hold; and its CMD write completes normally. -/
def Obligations.FailingCommandChangesStatusOnly : Prop :=
  (∀ (i : Instr) (s t : State) (e : Bool) (c : BitVec 4), exec i s = .next t →
    (KeepsError s t ∧
      exec i { s with err := e, errcode := c } = .next { t with err := e, errcode := c }) ∨
    (∃ code : BitVec 4, 1 ≤ code.toNat ∧ code.toNat ≤ 5 ∧ t = s.raised code ∧
      exec i { s with err := e, errcode := c } =
        .next (({ s with err := e, errcode := c } : State).raised code))) ∧
  (∀ (s : State) (w : Word) (rest : List PortEvent), s.Receives (.write (s.base + 0x038) 8 w) rest →
    ∃ t, step s = .next t ∧ t.response = some .writeDone)

/-- Every command completes, whatever the state. That `exec` refuses a term with no encoding, as R89 says an
assembler does, is the model's choice (notes/assumptions/11.md). -/
def Obligations.EveryCommandCompletes : Prop :=
  ∀ (i : Instr) (s : State),
    (i.wellFormed = true → ∃ t, exec i s = .next t) ∧
    (i.wellFormed = false → exec i s = .refused .operandOutOfRange)

/-- R34: a host write to STATUS with bit 0 set clears ERR and ERRCODE, another one changes nothing. -/
def Obligations.StatusWriteClearsError : Prop :=
  ∀ (s : State) (v : Word) (rest : List PortEvent), s.Receives (.write (s.base + 0x040) 8 v) rest →
    (v.getLsbD 0 = true →
      step s = .next { s with err := false, errcode := 0, port := rest, response := some .writeDone }) ∧
    (v.getLsbD 0 = false → step s = .next { s with port := rest, response := some .writeDone })

/-! ### The port (20_memory.md, 10_state.md) -/

/-- R55: what a read of each register returns, with no side effect. -/
def Obligations.RegisterReadsReturn : Prop :=
  ∀ (s : State) (rest : List PortEvent) (off : Nat) (v : Word),
    (off, v) ∈ [(0x000, (0x0000000143524345 : Word)),
      (0x008, (s.resw.setWidth 64 <<< 8) ||| s.bits.setWidth 64), (0x010, s.poly), (0x018, s.init),
      (0x020, s.acc), (0x028, s.result), (0x030, s.data), (0x038, 0),
        (0x040, ((if tfull s.table then (1 : Word) else 0) <<< (16 : Nat)) |||
          (s.errcode.setWidth 64 <<< (8 : Nat)) ||| (if s.err then 1 else 0))] →
    s.Receives (.read (s.base + off) 8) rest →
    step s = .next { s with port := rest, response := some (.readData v) }

/-- R36, with the fields of R33: what a read of STATUS returns; TFULL is the AND of the valid bits, and every
reserved bit reads 0. -/
def Obligations.StatusReadReturnsFields : Prop :=
  ∀ (s : State) (rest : List PortEvent), s.Receives (.read (s.base + 0x040) 8) rest →
    ∃ v : Word, step s = .next { s with port := rest, response := some (.readData v) } ∧
      v.getLsbD 0 = s.err ∧ v.extractLsb' 8 4 = s.errcode ∧
      (v.getLsbD 16 = true ↔ ∀ n < 256, (s.table.readEntry n).isSome = true) ∧
      ∀ i, i ≠ 0 → i ≠ 16 → ¬ (8 ≤ i ∧ i ≤ 11) → v.getLsbD i = false

/-- R56, R57: what a write to each register does, and the two that are bus errors. -/
def Obligations.RegisterWritesStore : Prop :=
  ∀ (s : State) (v : Word) (rest : List PortEvent),
    let u : State := { s with port := rest, response := some .writeDone }
    (s.Receives (.write (s.base + 0x008) 8 v) rest →
      step s = .next { u with bits := v.extractLsb' 0 7, resw := v.extractLsb' 8 3 }) ∧
    (s.Receives (.write (s.base + 0x010) 8 v) rest → step s = .next { u with poly := v }) ∧
    (s.Receives (.write (s.base + 0x018) 8 v) rest → step s = .next { u with init := v }) ∧
    (s.Receives (.write (s.base + 0x020) 8 v) rest → step s = .next { u with acc := v }) ∧
    (s.Receives (.write (s.base + 0x030) 8 v) rest → step s = .next { u with data := v }) ∧
    (s.Receives (.write (s.base + 0x038) 8 v) rest → step s = execute v u) ∧
    (s.Receives (.write (s.base + 0x040) 8 v) rest →
      step s = .next (if v.getLsbD 0 then { u with err := false, errcode := 0 } else u)) ∧
    (s.Receives (.write (s.base + 0x000) 8 v) rest →
      step s = .fault (.readOnlyRegister (s.base + 0x000)) ∧
      s.resumeAfter = { s with port := rest, response := some .errorResponse }) ∧
    (s.Receives (.write (s.base + 0x028) 8 v) rest →
      step s = .fault (.readOnlyRegister (s.base + 0x028)) ∧
      s.resumeAfter = { s with port := rest, response := some .errorResponse })

/-- R22: CFG stores BITS and RESW as written, legal or not, and its reserved bits read 0: a read after a
write of `v` returns `v AND 0x77F`. -/
def Obligations.CfgReadsBackItsFields : Prop :=
  ∀ (s t : State) (v : Word) (rest : List PortEvent),
    s.Receives (.write (s.base + 0x008) 8 v) (.access (.read (s.base + 0x008) 8) :: rest) →
    step s = .next t →
    t.bits = v.extractLsb' 0 7 ∧ t.resw = v.extractLsb' 8 3 ∧
    ∃ u, step t = .next u ∧ u.response = some (.readData (v &&& 0x77F))

/-- R60: a host read of a valid entry returns it, of an invalid one is a bus error; a host write stores all
64 bits and sets that valid bit, and every byte outside the entry reads as before. -/
def Obligations.TableWindowReadsAndWrites : Prop :=
  ∀ (s : State) (rest : List PortEvent) (n : Nat), n < 256 →
    (s.Receives (.read (s.base + 0x800 + 8 * n) 8) rest →
      (s.table.readEntry n = none →
        step s = .fault (.invalidEntry (s.base + 0x800 + 8 * n)) ∧
        s.resumeAfter = { s with port := rest, response := some .errorResponse }) ∧
      (∀ v, s.table.readEntry n = some v →
        step s = .next { s with port := rest, response := some (.readData v) })) ∧
    (∀ v, s.Receives (.write (s.base + 0x800 + 8 * n) 8 v) rest →
      ∃ m : Memory, step s = .next { s with table := m, port := rest, response := some .writeDone } ∧
        m.readEntry n = some v ∧ (∀ k, k ≠ n → m.readEntry k = s.table.readEntry k) ∧
        ∀ off, ¬ (0x800 + 8 * n ≤ off ∧ off < 0x800 + 8 * n + 8) →
          m.readByte off = s.table.readByte off)

/-- R54 with R60: the byte of the table window at `0x800 + 8n + k` is bits `[8k+7:8k]` of `T[n]`. -/
def Obligations.TableBytesAreLittleEndian : Prop :=
  ∀ (m : Memory) (n k : Nat) (v : Word), n < 256 → k < 8 → m.readEntry n = some v →
    m.readByte (0x800 + 8 * n + k) = some (v.extractLsb' (8 * k) 8)

/-- R52, R53, R58: an access in the window of another size, misaligned, or in the reserved hole is a bus error
(a fault), read or write, and changes no state of the block (R210). -/
def Obligations.BusErrorsFaultAndKeepState : Prop :=
  ∀ (s : State) (rest : List PortEvent) (a : Access) (off size : Nat), off < 0x1000 →
    (a = .read (s.base + off) size ∨ ∃ v, a = .write (s.base + off) size v) →
    (size ≠ 8 ∨ off % 8 ≠ 0 ∨ (0x048 ≤ off ∧ off < 0x800)) → s.Receives a rest →
    (∃ f ∈ [Fault.badSize (s.base + off), .misaligned (s.base + off), .reservedOffset (s.base + off)],
      step s = .fault f) ∧
    s.resumeAfter = { s with port := rest, response := some .errorResponse }

/-- Every aligned 8-byte access that is none of the bus errors of R210 completes. -/
def Obligations.AcceptedAccessesComplete : Prop :=
  ∀ (s : State) (rest : List PortEvent) (off : Nat), off % 8 = 0 → off < 0x1000 →
    ¬ (0x048 ≤ off ∧ off < 0x800) →
    ((0x800 ≤ off → (s.table.readEntry ((off - 0x800) / 8)).isSome = true) →
      s.Receives (.read (s.base + off) 8) rest →
      ∃ v, step s = .next { s with port := rest, response := some (.readData v) }) ∧
    (∀ v, off ≠ 0x000 → off ≠ 0x028 → s.Receives (.write (s.base + off) 8 v) rest →
      ∃ t, step s = .next t ∧ t.port = rest ∧ t.response = some .writeDone)

/-! ### Polynomial forms (40_polynomial_forms.md) -/

/-- R101: SELW writes 8, 16, 32 or 64 by the four buckets of BITS, and raises BADBITS for an illegal BITS. -/
def Obligations.SelwWritesTheBucket : Prop :=
  decode 0x0000000000000001 = .ok .selw ∧
  ∀ s : State,
    (s.LegalBits → s.bits.toNat ≤ 8 → exec .selw s = .next { s with result := 8 }) ∧
    (s.LegalBits → 9 ≤ s.bits.toNat → s.bits.toNat ≤ 16 → exec .selw s = .next { s with result := 16 }) ∧
    (s.LegalBits → 17 ≤ s.bits.toNat → s.bits.toNat ≤ 32 → exec .selw s = .next { s with result := 32 }) ∧
    (s.LegalBits → 33 ≤ s.bits.toNat → exec .selw s = .next { s with result := 64 }) ∧
    (¬ s.LegalBits → exec .selw s = .next (s.raised 2))

/-- R102: ONES writes `2^B - 1`: bits below B set, the others clear. -/
def Obligations.OnesWritesTheMask : Prop :=
  decode 0x0000000000000002 = .ok .ones ∧
  ∀ s : State,
    (s.LegalBits → ∃ r : Word, exec .ones s = .next { s with result := r } ∧
      r.toNat = 2 ^ s.bits.toNat - 1 ∧ ∀ i, r.getLsbD i = decide (i < s.bits.toNat)) ∧
    (¬ s.LegalBits → exec .ones s = .next (s.raised 2))

/-- R103: TOKOOP, by its formula and by its bits. -/
def Obligations.TokoopWritesKoopmanForm : Prop :=
  decode 0x0000000000000003 = .ok .tokoop ∧
  ∀ s : State,
    (s.LegalBits → ∃ r : Word, exec .tokoop s = .next { s with result := r } ∧
      r = ((s.poly >>> 1) ||| ((1 : Word) <<< (s.bits.toNat - 1))) &&& BitVec.ofNat 64 (2 ^ s.bits.toNat - 1) ∧
      ∀ i, r.getLsbD i =
        if i + 1 < s.bits.toNat then s.poly.getLsbD (i + 1) else decide (i + 1 = s.bits.toNat)) ∧
    (¬ s.LegalBits → exec .tokoop s = .next (s.raised 2))

/-- R104: FROMKOOP, by its formula and by its bits. -/
def Obligations.FromkoopWritesNormalForm : Prop :=
  decode 0x0000000000000004 = .ok .fromkoop ∧
  ∀ s : State,
    (s.LegalBits → ∃ r : Word, exec .fromkoop s = .next { s with result := r } ∧
      r = ((s.poly <<< 1) ||| 1) &&& BitVec.ofNat 64 (2 ^ s.bits.toNat - 1) ∧
      r.getLsbD 0 = true ∧
      ∀ i, 1 ≤ i → r.getLsbD i = (decide (i < s.bits.toNat) && s.poly.getLsbD (i - 1))) ∧
    (¬ s.LegalBits → exec .fromkoop s = .next (s.raised 2))

/-- R105: REVPOLY writes the mirror of POLY within the BITS-bit window. -/
def Obligations.RevpolyMirrorsTheWindow : Prop :=
  decode 0x0000000000000005 = .ok .revpoly ∧
  ∀ s : State,
    (s.LegalBits → ∃ r : Word, exec .revpoly s = .next { s with result := r } ∧
      ∀ i, r.getLsbD i =
        (decide (i < s.bits.toNat) && s.poly.getLsbD (s.bits.toNat - 1 - i))) ∧
    (¬ s.LegalBits → exec .revpoly s = .next (s.raised 2))

/-- R106: the Koopman round trip, and exactly when it gives the polynomial back. -/
def Obligations.KoopmanRoundTrip : Prop :=
  ∀ (B : Nat) (p : Word), 1 ≤ B → B ≤ 64 →
    fromKoopman B (toKoopman B p) = (p ||| 1) &&& ones B ∧
    (fromKoopman B (toKoopman B p) = p &&& ones B ↔ p.getLsbD 0 = true)

/-- R107: the round trip in the other direction. -/
def Obligations.KoopmanRoundTripOtherDirection : Prop :=
  ∀ (B : Nat) (k : Word), 1 ≤ B → B ≤ 64 →
    toKoopman B (fromKoopman B k) = (k &&& ones B) ||| ((1 : Word) <<< (B - 1))

/-- R108: reversal is an involution within the window. -/
def Obligations.ReversalIsInvolution : Prop :=
  ∀ (B : Nat) (p : Word), 1 ≤ B → B ≤ 64 → rev B (rev B p) = p &&& ones B

/-- R109: the results of the polynomial forms are below `2^B` (SELW's is one of four), and two bits are fixed. -/
def Obligations.PolynomialFormResultsAreBounded : Prop :=
  (∀ (B : Nat) (p : Word), 1 ≤ B → B ≤ 64 →
    (ones B).toNat < 2 ^ B ∧ (toKoopman B p).toNat < 2 ^ B ∧ (fromKoopman B p).toNat < 2 ^ B ∧
    (rev B p).toNat < 2 ^ B ∧ (toKoopman B p).getLsbD (B - 1) = true ∧
    (fromKoopman B p).getLsbD 0 = true) ∧
  (∀ s : State, s.LegalBits →
    (∃ r ∈ [(8 : Word), 16, 32, 64], exec .selw s = .next { s with result := r }) ∧
    exec .ones s = .next { s with result := ones s.bits.toNat } ∧
    exec .tokoop s = .next { s with result := toKoopman s.bits.toNat s.poly } ∧
    exec .fromkoop s = .next { s with result := fromKoopman s.bits.toNat s.poly } ∧
    exec .revpoly s = .next { s with result := rev s.bits.toNat s.poly })

/-! ### Table generation (41_table.md) -/

/-- R121: LDDEF. -/
def Obligations.LddefLoadsTheDefault : Prop :=
  decode 0x0000000000000010 = .ok .lddef ∧
  ∀ s : State,
    (s.bits.toNat = 16 → exec .lddef s = .next { s with poly := 0x0000000000008005 }) ∧
    (s.bits.toNat = 32 → exec .lddef s = .next { s with poly := 0x0000000004C11DB7 }) ∧
    (s.LegalBits → s.bits.toNat ≠ 16 → s.bits.toNat ≠ 32 → exec .lddef s = .next (s.raised 4)) ∧
    (¬ s.LegalBits → exec .lddef s = .next (s.raised 2))

/-- R122: the table entry is eight bit steps, each a shift and then an XOR where bit 0 was 1, from the index,
with the reversed polynomial; it is below `2^B`. -/
def Obligations.TableEntryFunction : Prop :=
  (∀ v r : Word, v.getLsbD 0 = true → crcStep v r = (v >>> 1) ^^^ r) ∧
  (∀ v r : Word, v.getLsbD 0 = false → crcStep v r = v >>> 1) ∧
  (∀ v r : Word, step8 v r = (fun u => crcStep u r)^[8] v) ∧
  (∀ (B : Nat) (p : Word) (n : Nat), tabEntry B p n = step8 (BitVec.ofNat 64 n) (rev B p)) ∧
  (∀ (B : Nat) (p : Word) (n : Nat), 1 ≤ B → B ≤ 64 → n < 256 → (tabEntry B p n).toNat < 2 ^ B)

/-- R123: GENTAB writes all 256 entries and valid bits, and nothing else. -/
def Obligations.GentabWritesTheTable : Prop :=
  decode 0x0000000000000011 = .ok .gentab ∧
  ∀ s : State,
    (s.LegalBits → ∃ m : Memory, exec .gentab s = .next { s with table := m } ∧
      (∀ n < 256, m.readEntry n = some (tabEntry s.bits.toNat s.poly n)) ∧
      (∀ n, 256 ≤ n → m.readEntry n = s.table.readEntry n) ∧ tfull m = true) ∧
    (¬ s.LegalBits → exec .gentab s = .next (s.raised 2))

/-- R124: entry 0 of a generated table is 0. -/
def Obligations.TableEntryZeroIsZero : Prop := ∀ (B : Nat) (p : Word), tabEntry B p 0 = 0

/-- R125: the table is linear over XOR, and entry 0x80 is the reversed polynomial. -/
def Obligations.TableIsLinear : Prop :=
  (∀ (B : Nat) (p : Word) (a b : Byte),
    tabEntry B p (a ^^^ b).toNat = tabEntry B p a.toNat ^^^ tabEntry B p b.toNat) ∧
  (∀ (B : Nat) (p : Word), tabEntry B p 0x80 = rev B p)

/-! ### Incremental update (42_update.md) -/

/-- R141, R142: NEXT. -/
def Obligations.NextUpdatesAccumulator : Prop :=
  ∀ (s : State) (b : Nat), b < 256 →
    let W := selw s.bits.toNat
    let c := lowBits W s.acc
    decode ((BitVec.ofNat 64 b <<< 8) ||| 0x20) = .ok (.next b) ∧
    (∀ e, s.LegalBits → s.table.readEntry (entryIndex c (BitVec.ofNat 8 b)) = some e →
      exec (.next b) s = .next { s with acc := lowBits W (e ^^^ (c >>> 8)) }) ∧
    (s.LegalBits → s.table.readEntry (entryIndex c (BitVec.ofNat 8 b)) = none →
      exec (.next b) s = .next (s.raised 5)) ∧
    (¬ s.LegalBits → exec (.next b) s = .next (s.raised 2))

/-- R143: DSTEP; the truncation to W removes no set bit. -/
def Obligations.DstepUpdatesAccumulator : Prop :=
  ∀ (s : State) (b : Nat), b < 256 →
    let W := selw s.bits.toNat
    let c := lowBits W s.acc
    let v := step8 (c ^^^ BitVec.ofNat 64 b) (rev s.bits.toNat s.poly)
    decode ((BitVec.ofNat 64 b <<< 8) ||| 0x21) = .ok (.dstep b) ∧
    (s.LegalBits → exec (.dstep b) s = .next { s with acc := lowBits W v } ∧ lowBits W v = v) ∧
    (¬ s.LegalBits → exec (.dstep b) s = .next (s.raised 2))

/-- R144: one table step and one direct step agree where the entry read is the generated one. -/
def Obligations.TableAndDirectStepAgree : Prop :=
  ∀ (s : State) (b : Nat), b < 256 → s.LegalBits →
    (let i := entryIndex (lowBits (selw s.bits.toNat) s.acc) (BitVec.ofNat 8 b)
     s.table.readEntry i = some (tabEntry s.bits.toNat s.poly i)) →
    exec (.next b) s = exec (.dstep b) s

/-- R145: from an accumulator below `2^B`, with every entry read below `2^B`, a step stays below `2^B`, and
so does a feed. -/
def Obligations.UpdateStaysBelowWidth : Prop :=
  ∀ (s t : State), s.LegalBits → s.acc.toNat < 2 ^ s.bits.toNat →
    (∀ b < 256, exec (.dstep b) s = .next t → t.acc.toNat < 2 ^ s.bits.toNat) ∧
    (∀ b < 256, (∀ e, s.table.readEntry (entryIndex s.acc (BitVec.ofNat 8 b)) = some e →
        e.toNat < 2 ^ s.bits.toNat) →
      exec (.next b) s = .next t → t.acc.toNat < 2 ^ s.bits.toNat) ∧
    (∀ k, 1 ≤ k → k ≤ 8 → exec (.feedd k) s = .next t → t.acc.toNat < 2 ^ s.bits.toNat) ∧
    (∀ k, 1 ≤ k → k ≤ 8 → (∀ n e, s.table.readEntry n = some e → e.toNat < 2 ^ s.bits.toNat) →
      exec (.feedt k) s = .next t → t.acc.toNat < 2 ^ s.bits.toNat)

/-! ### Streaming (43_stream.md) -/

/-- R161: START loads INIT truncated to W bits. -/
def Obligations.StartLoadsInit : Prop :=
  decode 0x0000000000000030 = .ok .start ∧
  ∀ s : State,
    (s.LegalBits → exec .start s = .next { s with acc := lowBits (selw s.bits.toNat) s.init }) ∧
    (¬ s.LegalBits → exec .start s = .next (s.raised 2))

/-- R163, R165: FEEDT folds the table step over the low `k` bytes of DATA in order; where the entry of some
byte is invalid it raises TABUNINIT and ACC keeps its value. `c i` is the accumulator before byte `i`. -/
def Obligations.FeedtFoldsTheBytes : Prop :=
  ∀ (s : State) (k : Nat) (c : Nat → Word), 1 ≤ k → k ≤ 8 →
    let W := selw s.bits.toNat
    let stepsBefore : Nat → Prop := fun n =>
      c 0 = lowBits W s.acc ∧ ∀ i < n, ∃ e,
        s.table.readEntry (entryIndex (c i) (s.dataByte i)) = some e ∧
        c (i + 1) = lowBits W (e ^^^ (c i >>> 8))
    decode ((BitVec.ofNat 64 (k - 1) <<< 16) ||| 0x31) = .ok (.feedt k) ∧
    (s.LegalBits → stepsBefore k → exec (.feedt k) s = .next { s with acc := c k }) ∧
    (∀ j < k, s.LegalBits → stepsBefore j →
      s.table.readEntry (entryIndex (c j) (s.dataByte j)) = none →
      exec (.feedt k) s = .next (s.raised 5)) ∧
    (¬ s.LegalBits → exec (.feedt k) s = .next (s.raised 2))

/-- R164: FEEDD folds the direct step over the low `k` bytes of DATA in order. -/
def Obligations.FeeddFoldsTheBytes : Prop :=
  ∀ (s : State) (k : Nat) (c : Nat → Word), 1 ≤ k → k ≤ 8 →
    let W := selw s.bits.toNat
    decode ((BitVec.ofNat 64 (k - 1) <<< 16) ||| 0x32) = .ok (.feedd k) ∧
    (s.LegalBits → c 0 = lowBits W s.acc →
      (∀ i < k, c (i + 1) =
        lowBits W (step8 (c i ^^^ (s.dataByte i).setWidth 64) (rev s.bits.toNat s.poly))) →
      exec (.feedd k) s = .next { s with acc := c k }) ∧
    (¬ s.LegalBits → exec (.feedd k) s = .next (s.raised 2))

/-- A feed of one byte is the one-byte command with `DATA[7:0]` (corner cases of R163 and R164). -/
def Obligations.FeedOfOneByteIsOneStep : Prop :=
  ∀ s : State, exec (.feedt 1) s = exec (.next (s.dataByte 0).toNat) s ∧
    exec (.feedd 1) s = exec (.dstep (s.dataByte 0).toNat) s

/-- The accumulator after the last feed does not depend on how the bytes are split (R160): `j + k` bytes at
once, or `j` bytes and then the next `k`. For the direct feed always; for the table feed over any table
whose entries the bytes read are valid, `c i` being the accumulator before byte `i`. -/
def Obligations.FeedSplits : Prop :=
  ∀ (s : State) (j k : Nat), 1 ≤ j → 1 ≤ k → j + k ≤ 8 → s.LegalBits →
    (∃ t u v, exec (.feedd j) s = .next t ∧
      exec (.feedd k) { t with data := s.data >>> (8 * j) } = .next u ∧
      exec (.feedd (j + k)) s = .next v ∧ u.acc = v.acc) ∧
    (∀ c : Nat → Word, c 0 = lowBits (selw s.bits.toNat) s.acc →
      (∀ i < j + k, ∃ e, s.table.readEntry (entryIndex (c i) (s.dataByte i)) = some e ∧
        c (i + 1) = lowBits (selw s.bits.toNat) (e ^^^ (c i >>> 8))) →
      ∃ t u v, exec (.feedt j) s = .next t ∧
        exec (.feedt k) { t with data := s.data >>> (8 * j) } = .next u ∧
        exec (.feedt (j + k)) s = .next v ∧ t.acc = c j ∧ u.acc = c (j + k) ∧ v.acc = c (j + k) ∧
        KeepsError s u ∧ KeepsError s v)

/-- R166 with R204 and R207: FINISH narrows or widens the accumulator; the reserved codes raise BADRESW, after
the BITS check. -/
def Obligations.FinishWritesResult : Prop :=
  decode 0x0000000000000033 = .ok .finish ∧
  ∀ s : State,
    let W := selw s.bits.toNat
    let c := lowBits W s.acc
    (s.LegalBits → s.resw = 0 → exec .finish s = .next { s with result := lowBits W c }) ∧
    (s.LegalBits → s.resw = 1 → exec .finish s = .next { s with result := lowBits 8 c }) ∧
    (s.LegalBits → s.resw = 2 → exec .finish s = .next { s with result := lowBits 16 c }) ∧
    (s.LegalBits → s.resw = 3 → exec .finish s = .next { s with result := lowBits 32 c }) ∧
    (s.LegalBits → s.resw = 4 → exec .finish s = .next { s with result := lowBits 64 c }) ∧
    (s.LegalBits → 5 ≤ s.resw.toNat → exec .finish s = .next (s.raised 3)) ∧
    (¬ s.LegalBits → exec .finish s = .next (s.raised 2))

/-- R168: the table fold and the direct fold agree: wherever the table is the one GENTAB generated from the
current BITS and POLY, FEEDT and FEEDD with the same DATA and count leave the same state, and so do whole
folds (START, any number of feeds, FINISH), which complete. -/
def Obligations.TableAndDirectFoldAgree : Prop :=
  ∀ (s t u : State), s.LegalBits → exec .gentab s = .next t →
    u.table = t.table → u.bits = s.bits → u.poly = s.poly → u.pNarrow = s.pNarrow →
    (∀ k, 1 ≤ k → k ≤ 8 → exec (.feedt k) u = exec (.feedd k) u) ∧
    (∀ feeds : List (Word × Nat), (∀ f ∈ feeds, 1 ≤ f.2 ∧ f.2 ≤ 8) →
      ∃ v, u.wholeFold .feedt feeds = some v ∧ u.wholeFold .feedd feeds = some v)

/-- R169: START and then FINISH give INIT back, narrowed or widened only. -/
def Obligations.EmptyFoldReturnsInit : Prop :=
  ∀ (s : State) (R : Nat), s.LegalBits →
    (R, s.resw) ∈ [(selw s.bits.toNat, (0 : BitVec 3)), (8, 1), (16, 2), (32, 3), (64, 4)] →
    ∃ t u, exec .start s = .next t ∧ exec .finish t = .next u ∧
      u.result = lowBits R (lowBits (selw s.bits.toNat) s.init)

/-! ### Control (44_control.md) -/

/-- R180: NOP changes nothing, whatever CFG and STATUS hold; a word with OP 0x00 and any other bit set is
ILLEGAL. -/
def Obligations.NopChangesNothing : Prop :=
  (∀ s : State, exec .nop s = .next s) ∧
  (∀ (s : State) (w : Word), w.extractLsb' 0 8 = 0 → w ≠ 0 → execute w s = .next (s.raised 1)) ∧
  (∀ s : State, execute 0 s = .next s)

/-! ### Frames and whole-machine rules -/

/-- Frame of the commands that write RESULT (R100; R166): nothing else changes but, at an error, STATUS. -/
def Obligations.ResultCommandsFrame : Prop :=
  ∀ (i : Instr) (s t : State), i ∈ [Instr.selw, .ones, .tokoop, .fromkoop, .revpoly, .finish] →
    exec i s = .next t →
    KeepsHostRegisters s t ∧ KeepsTable s t ∧ KeepsEnvironment s t ∧ t.poly = s.poly ∧ t.acc = s.acc ∧
    (KeepsError s t ∨ (t.err = true ∧ t.result = s.result))

/-- Frame of the commands that write ACC (R140; R161; R163; R164): nothing else changes but, at an error,
STATUS. -/
def Obligations.AccumulatorCommandsFrame : Prop :=
  ∀ (i : Instr) (s t : State), i.mnemonic ∈ ["NEXT", "DSTEP", "START", "FEEDT", "FEEDD"] →
    exec i s = .next t →
    KeepsHostRegisters s t ∧ KeepsTable s t ∧ KeepsEnvironment s t ∧ t.poly = s.poly ∧
    t.result = s.result ∧ (KeepsError s t ∨ (t.err = true ∧ t.acc = s.acc))

/-- Frame of LDDEF, GENTAB and NOP (R120; R180): LDDEF changes POLY alone, GENTAB the table alone, NOP nothing;
at an error, STATUS alone. -/
def Obligations.TableCommandsFrame : Prop :=
  ∀ (i : Instr) (s t : State), i ∈ [Instr.lddef, .gentab, .nop] → exec i s = .next t →
    KeepsHostRegisters s t ∧ KeepsEnvironment s t ∧ t.acc = s.acc ∧ t.result = s.result ∧
    (i ≠ .lddef → t.poly = s.poly) ∧ (i ≠ .gentab → KeepsTable s t) ∧
    (∀ off, ¬ (0x800 ≤ off ∧ off < 0x1000) → t.table.readByte off = s.table.readByte off) ∧
    (KeepsError s t ∨ (t.err = true ∧ t.poly = s.poly ∧ KeepsTable s t))

/-- R167: RESW is read by FINISH alone: every other command does the same whatever RESW holds. -/
def Obligations.ResultWidthReadByFinishAlone : Prop :=
  ∀ (i : Instr) (s t : State) (r : BitVec 3), i ≠ .finish → exec i s = .next t →
    exec i { s with resw := r } = .next { t with resw := r }

/-- Bits of POLY at or above BITS are ignored by every command (R25): two states that differ there alone
go on alike, but for POLY itself. -/
def Obligations.PolyBitsAboveWidthIgnored : Prop :=
  ∀ (i : Instr) (s t : State) (q : Word), (∀ j < s.bits.toNat, q.getLsbD j = s.poly.getLsbD j) →
    exec i s = .next t →
    ∃ q', exec i { s with poly := q } = .next { t with poly := q' } ∧
      (q' = t.poly ∨ (t.poly = s.poly ∧ q' = q))

/-- No command reads ACC or INIT at or above W (R27, R161): two states whose ACC and INIT agree below W go on
alike, but for ACC and INIT themselves; after a command that writes ACC they agree whole. -/
def Obligations.AccumulatorBitsAboveWidthIgnored : Prop :=
  ∀ (i : Instr) (s t : State) (a n : Word),
    lowBits (selw s.bits.toNat) a = lowBits (selw s.bits.toNat) s.acc →
    lowBits (selw s.bits.toNat) n = lowBits (selw s.bits.toNat) s.init →
    exec i s = .next t →
    ∃ a', exec i { s with acc := a, init := n } = .next { t with acc := a', init := n } ∧
      (a' = t.acc ∨ (t.acc = s.acc ∧ a' = a))
end

