-- ==== Sys2Proof/Laws/Memory.lean ====
section
/-! SUPPORT. The laws of the table RAM: read after write, the canonical form, the fill of GENTAB, and the
byte view. -/

namespace Sys2Proof.Machine

theorem readEntry_nil (n : Nat) : Memory.readEntry [] n = none := rfl

theorem readEntry_writeEntry_same (m : Memory) (n : Nat) (v : Word) :
    (m.writeEntry n v).readEntry n = some v := by
  induction m with
  | nil => simp [Memory.writeEntry, Memory.readEntry]
  | cons c rest ih =>
    obtain ⟨k, u⟩ := c
    simp only [Memory.writeEntry]
    split
    · simp [Memory.readEntry]
    · split
      · simp [Memory.readEntry]
      · rename_i h1 h2
        simp only [Memory.readEntry]
        rw [if_neg (fun h => h2 h.symm), ih]

theorem readEntry_writeEntry_ne (m : Memory) {n k : Nat} (v : Word) (h : k ≠ n) :
    (m.writeEntry n v).readEntry k = m.readEntry k := by
  induction m with
  | nil => simp [Memory.writeEntry, Memory.readEntry, h.symm]
  | cons c rest ih =>
    obtain ⟨j, u⟩ := c
    simp only [Memory.writeEntry]
    split
    · simp [Memory.readEntry, h.symm]
    · split
      · rename_i h1 h2
        subst h2
        simp [Memory.readEntry, h.symm]
      · simp only [Memory.readEntry, ih]

/-- Everything a write does to the entries. -/
theorem readEntry_writeEntry (m : Memory) (n k : Nat) (v : Word) :
    (m.writeEntry n v).readEntry k = if k = n then some v else m.readEntry k := by
  split
  · rename_i h; subst h; exact readEntry_writeEntry_same m k v
  · rename_i h; exact readEntry_writeEntry_ne m v h

/-- The indexes a write leaves in the list. -/
theorem mem_keys_writeEntry (m : Memory) (n : Nat) (v : Word) (j : Nat) :
    j ∈ (m.writeEntry n v).map Prod.fst → j = n ∨ j ∈ m.map Prod.fst := by
  induction m with
  | nil => simp [Memory.writeEntry]
  | cons c rest ih =>
    obtain ⟨k, u⟩ := c
    simp only [Memory.writeEntry]
    split
    · simp
    · split
      · rename_i h1 h2; subst h2; simp
      · simp only [List.map_cons, List.mem_cons]
        rintro (h | h)
        · exact .inr (.inl h)
        · rcases ih h with h | h
          · exact .inl h
          · exact .inr (.inr h)

theorem pairwise_writeEntry (m : Memory) (n : Nat) (v : Word)
    (h : (m.map Prod.fst).Pairwise (· < ·)) : ((m.writeEntry n v).map Prod.fst).Pairwise (· < ·) := by
  induction m with
  | nil => simp [Memory.writeEntry]
  | cons c rest ih =>
    obtain ⟨k, u⟩ := c
    simp only [List.map_cons, List.pairwise_cons] at h
    simp only [Memory.writeEntry]
    split
    · rename_i hlt
      simp only [List.map_cons, List.pairwise_cons]
      refine ⟨?_, h⟩
      intro j hj
      rcases List.mem_cons.1 hj with rfl | hj
      · exact hlt
      · exact Nat.lt_trans hlt (h.1 j hj)
    · split
      · rename_i h1 h2
        subst h2
        simpa using h
      · rename_i h1 h2
        simp only [List.map_cons, List.pairwise_cons]
        refine ⟨?_, ih h.2⟩
        intro j hj
        rcases mem_keys_writeEntry rest n v j hj with rfl | hj
        · omega
        · exact h.1 j hj

/-- A write keeps the canonical form. -/
theorem wf_writeEntry {m : Memory} {n : Nat} (v : Word) (hn : n < 256) (h : m.wf) :
    (m.writeEntry n v).wf := by
  refine ⟨pairwise_writeEntry m n v h.1, fun c hc => ?_⟩
  rcases mem_keys_writeEntry m n v c.1 (List.mem_map_of_mem hc) with h' | h'
  · omega
  · obtain ⟨d, hd, hd'⟩ := List.mem_map.1 h'
    exact hd' ▸ h.2 d hd

/-- The fold of GENTAB over any list of indexes. -/
theorem readEntry_foldr_write (f : Nat → Word) (m : Memory) (l : List Nat) (k : Nat) :
    (l.foldr (fun n t => Memory.writeEntry t n (f n)) m).readEntry k =
      if k ∈ l then some (f k) else m.readEntry k := by
  induction l with
  | nil => simp
  | cons a l ih =>
    simp only [List.foldr_cons, readEntry_writeEntry, ih, List.mem_cons]
    by_cases h : k = a
    · subst h; simp
    · simp [h]

/-- Everything `fill` does to the entries. -/
theorem readEntry_fill (m : Memory) (f : Nat → Word) (n : Nat) :
    (m.fill f).readEntry n = if n < 256 then some (f n) else m.readEntry n := by
  unfold Memory.fill
  rw [readEntry_foldr_write]
  simp only [List.mem_range]

/-- `fill` keeps the canonical form. -/
theorem wf_fill {m : Memory} (f : Nat → Word) (h : m.wf) : (m.fill f).wf := by
  have : ∀ l : List Nat, (∀ n ∈ l, n < 256) →
      (l.foldr (fun n t => Memory.writeEntry t n (f n)) m).wf := by
    intro l
    induction l with
    | nil => intro _; exact h
    | cons a l ih =>
      intro hl
      exact wf_writeEntry _ (hl a (List.mem_cons_self ..)) (ih fun n hn => hl n (List.mem_cons_of_mem _ hn))
  unfold Memory.fill
  exact this (List.range 256) fun n hn => List.mem_range.1 hn

theorem wf_nil : Memory.wf [] := by decide

/-- Two memories with the same entries have the same bytes. -/
theorem readByte_congr {m m' : Memory} (h : ∀ n, m.readEntry n = m'.readEntry n) (off : Nat) :
    m.readByte off = m'.readByte off := by
  simp only [Memory.readByte, h]

/-- TFULL, by the entries (10_state.md R36). -/
theorem tfull_iff (m : Memory) : tfull m = true ↔ ∀ n < 256, (m.readEntry n).isSome = true := by
  simp [tfull, Memory.tv]

end Sys2Proof.Machine
end

