-- ==== Sys2Proof/Laws/State.lean ====
section
/-! SUPPORT. One lemma for each field of each named update of the state, so that no later proof unfolds an
update. -/

namespace Sys2Proof.Machine

section setResult
variable (s : State) (v : Word)
@[simp] theorem setResult_bits : (s.setResult v).bits = s.bits := rfl
@[simp] theorem setResult_resw : (s.setResult v).resw = s.resw := rfl
@[simp] theorem setResult_poly : (s.setResult v).poly = s.poly := rfl
@[simp] theorem setResult_init : (s.setResult v).init = s.init := rfl
@[simp] theorem setResult_acc : (s.setResult v).acc = s.acc := rfl
@[simp] theorem setResult_result : (s.setResult v).result = v := rfl
@[simp] theorem setResult_data : (s.setResult v).data = s.data := rfl
@[simp] theorem setResult_err : (s.setResult v).err = s.err := rfl
@[simp] theorem setResult_errcode : (s.setResult v).errcode = s.errcode := rfl
@[simp] theorem setResult_table : (s.setResult v).table = s.table := rfl
@[simp] theorem setResult_basePage : (s.setResult v).basePage = s.basePage := rfl
@[simp] theorem setResult_pNarrow : (s.setResult v).pNarrow = s.pNarrow := rfl
@[simp] theorem setResult_port : (s.setResult v).port = s.port := rfl
@[simp] theorem setResult_response : (s.setResult v).response = s.response := rfl
end setResult

section setAcc
variable (s : State) (v : Word)
@[simp] theorem setAcc_bits : (s.setAcc v).bits = s.bits := rfl
@[simp] theorem setAcc_resw : (s.setAcc v).resw = s.resw := rfl
@[simp] theorem setAcc_poly : (s.setAcc v).poly = s.poly := rfl
@[simp] theorem setAcc_init : (s.setAcc v).init = s.init := rfl
@[simp] theorem setAcc_acc : (s.setAcc v).acc = v := rfl
@[simp] theorem setAcc_result : (s.setAcc v).result = s.result := rfl
@[simp] theorem setAcc_data : (s.setAcc v).data = s.data := rfl
@[simp] theorem setAcc_err : (s.setAcc v).err = s.err := rfl
@[simp] theorem setAcc_errcode : (s.setAcc v).errcode = s.errcode := rfl
@[simp] theorem setAcc_table : (s.setAcc v).table = s.table := rfl
@[simp] theorem setAcc_basePage : (s.setAcc v).basePage = s.basePage := rfl
@[simp] theorem setAcc_pNarrow : (s.setAcc v).pNarrow = s.pNarrow := rfl
@[simp] theorem setAcc_port : (s.setAcc v).port = s.port := rfl
@[simp] theorem setAcc_response : (s.setAcc v).response = s.response := rfl
end setAcc

section setPoly
variable (s : State) (v : Word)
@[simp] theorem setPoly_bits : (s.setPoly v).bits = s.bits := rfl
@[simp] theorem setPoly_resw : (s.setPoly v).resw = s.resw := rfl
@[simp] theorem setPoly_poly : (s.setPoly v).poly = v := rfl
@[simp] theorem setPoly_init : (s.setPoly v).init = s.init := rfl
@[simp] theorem setPoly_acc : (s.setPoly v).acc = s.acc := rfl
@[simp] theorem setPoly_result : (s.setPoly v).result = s.result := rfl
@[simp] theorem setPoly_data : (s.setPoly v).data = s.data := rfl
@[simp] theorem setPoly_err : (s.setPoly v).err = s.err := rfl
@[simp] theorem setPoly_errcode : (s.setPoly v).errcode = s.errcode := rfl
@[simp] theorem setPoly_table : (s.setPoly v).table = s.table := rfl
@[simp] theorem setPoly_basePage : (s.setPoly v).basePage = s.basePage := rfl
@[simp] theorem setPoly_pNarrow : (s.setPoly v).pNarrow = s.pNarrow := rfl
@[simp] theorem setPoly_port : (s.setPoly v).port = s.port := rfl
@[simp] theorem setPoly_response : (s.setPoly v).response = s.response := rfl
end setPoly

section setInit
variable (s : State) (v : Word)
@[simp] theorem setInit_bits : (s.setInit v).bits = s.bits := rfl
@[simp] theorem setInit_resw : (s.setInit v).resw = s.resw := rfl
@[simp] theorem setInit_poly : (s.setInit v).poly = s.poly := rfl
@[simp] theorem setInit_init : (s.setInit v).init = v := rfl
@[simp] theorem setInit_acc : (s.setInit v).acc = s.acc := rfl
@[simp] theorem setInit_result : (s.setInit v).result = s.result := rfl
@[simp] theorem setInit_data : (s.setInit v).data = s.data := rfl
@[simp] theorem setInit_err : (s.setInit v).err = s.err := rfl
@[simp] theorem setInit_errcode : (s.setInit v).errcode = s.errcode := rfl
@[simp] theorem setInit_table : (s.setInit v).table = s.table := rfl
@[simp] theorem setInit_basePage : (s.setInit v).basePage = s.basePage := rfl
@[simp] theorem setInit_pNarrow : (s.setInit v).pNarrow = s.pNarrow := rfl
@[simp] theorem setInit_port : (s.setInit v).port = s.port := rfl
@[simp] theorem setInit_response : (s.setInit v).response = s.response := rfl
end setInit

section setData
variable (s : State) (v : Word)
@[simp] theorem setData_bits : (s.setData v).bits = s.bits := rfl
@[simp] theorem setData_resw : (s.setData v).resw = s.resw := rfl
@[simp] theorem setData_poly : (s.setData v).poly = s.poly := rfl
@[simp] theorem setData_init : (s.setData v).init = s.init := rfl
@[simp] theorem setData_acc : (s.setData v).acc = s.acc := rfl
@[simp] theorem setData_result : (s.setData v).result = s.result := rfl
@[simp] theorem setData_data : (s.setData v).data = v := rfl
@[simp] theorem setData_err : (s.setData v).err = s.err := rfl
@[simp] theorem setData_errcode : (s.setData v).errcode = s.errcode := rfl
@[simp] theorem setData_table : (s.setData v).table = s.table := rfl
@[simp] theorem setData_basePage : (s.setData v).basePage = s.basePage := rfl
@[simp] theorem setData_pNarrow : (s.setData v).pNarrow = s.pNarrow := rfl
@[simp] theorem setData_port : (s.setData v).port = s.port := rfl
@[simp] theorem setData_response : (s.setData v).response = s.response := rfl
end setData

section setCfg
variable (s : State) (v : Word)
@[simp] theorem setCfg_bits : (s.setCfg v).bits = v.extractLsb' 0 7 := rfl
@[simp] theorem setCfg_resw : (s.setCfg v).resw = v.extractLsb' 8 3 := rfl
@[simp] theorem setCfg_poly : (s.setCfg v).poly = s.poly := rfl
@[simp] theorem setCfg_init : (s.setCfg v).init = s.init := rfl
@[simp] theorem setCfg_acc : (s.setCfg v).acc = s.acc := rfl
@[simp] theorem setCfg_result : (s.setCfg v).result = s.result := rfl
@[simp] theorem setCfg_data : (s.setCfg v).data = s.data := rfl
@[simp] theorem setCfg_err : (s.setCfg v).err = s.err := rfl
@[simp] theorem setCfg_errcode : (s.setCfg v).errcode = s.errcode := rfl
@[simp] theorem setCfg_table : (s.setCfg v).table = s.table := rfl
@[simp] theorem setCfg_basePage : (s.setCfg v).basePage = s.basePage := rfl
@[simp] theorem setCfg_pNarrow : (s.setCfg v).pNarrow = s.pNarrow := rfl
@[simp] theorem setCfg_port : (s.setCfg v).port = s.port := rfl
@[simp] theorem setCfg_response : (s.setCfg v).response = s.response := rfl
end setCfg

section setTable
variable (s : State) (m : Memory)
@[simp] theorem setTable_bits : (s.setTable m).bits = s.bits := rfl
@[simp] theorem setTable_resw : (s.setTable m).resw = s.resw := rfl
@[simp] theorem setTable_poly : (s.setTable m).poly = s.poly := rfl
@[simp] theorem setTable_init : (s.setTable m).init = s.init := rfl
@[simp] theorem setTable_acc : (s.setTable m).acc = s.acc := rfl
@[simp] theorem setTable_result : (s.setTable m).result = s.result := rfl
@[simp] theorem setTable_data : (s.setTable m).data = s.data := rfl
@[simp] theorem setTable_err : (s.setTable m).err = s.err := rfl
@[simp] theorem setTable_errcode : (s.setTable m).errcode = s.errcode := rfl
@[simp] theorem setTable_table : (s.setTable m).table = m := rfl
@[simp] theorem setTable_basePage : (s.setTable m).basePage = s.basePage := rfl
@[simp] theorem setTable_pNarrow : (s.setTable m).pNarrow = s.pNarrow := rfl
@[simp] theorem setTable_port : (s.setTable m).port = s.port := rfl
@[simp] theorem setTable_response : (s.setTable m).response = s.response := rfl
end setTable

section raiseCmdError
variable (s : State) (e : CmdError)
@[simp] theorem raiseCmdError_bits : (s.raiseCmdError e).bits = s.bits := rfl
@[simp] theorem raiseCmdError_resw : (s.raiseCmdError e).resw = s.resw := rfl
@[simp] theorem raiseCmdError_poly : (s.raiseCmdError e).poly = s.poly := rfl
@[simp] theorem raiseCmdError_init : (s.raiseCmdError e).init = s.init := rfl
@[simp] theorem raiseCmdError_acc : (s.raiseCmdError e).acc = s.acc := rfl
@[simp] theorem raiseCmdError_result : (s.raiseCmdError e).result = s.result := rfl
@[simp] theorem raiseCmdError_data : (s.raiseCmdError e).data = s.data := rfl
@[simp] theorem raiseCmdError_err : (s.raiseCmdError e).err = true := rfl
@[simp] theorem raiseCmdError_errcode : (s.raiseCmdError e).errcode = if s.err then s.errcode else e.code := rfl
@[simp] theorem raiseCmdError_table : (s.raiseCmdError e).table = s.table := rfl
@[simp] theorem raiseCmdError_basePage : (s.raiseCmdError e).basePage = s.basePage := rfl
@[simp] theorem raiseCmdError_pNarrow : (s.raiseCmdError e).pNarrow = s.pNarrow := rfl
@[simp] theorem raiseCmdError_port : (s.raiseCmdError e).port = s.port := rfl
@[simp] theorem raiseCmdError_response : (s.raiseCmdError e).response = s.response := rfl
end raiseCmdError

section clearError
variable (s : State)
@[simp] theorem clearError_bits : (s.clearError).bits = s.bits := rfl
@[simp] theorem clearError_resw : (s.clearError).resw = s.resw := rfl
@[simp] theorem clearError_poly : (s.clearError).poly = s.poly := rfl
@[simp] theorem clearError_init : (s.clearError).init = s.init := rfl
@[simp] theorem clearError_acc : (s.clearError).acc = s.acc := rfl
@[simp] theorem clearError_result : (s.clearError).result = s.result := rfl
@[simp] theorem clearError_data : (s.clearError).data = s.data := rfl
@[simp] theorem clearError_err : (s.clearError).err = false := rfl
@[simp] theorem clearError_errcode : (s.clearError).errcode = 0 := rfl
@[simp] theorem clearError_table : (s.clearError).table = s.table := rfl
@[simp] theorem clearError_basePage : (s.clearError).basePage = s.basePage := rfl
@[simp] theorem clearError_pNarrow : (s.clearError).pNarrow = s.pNarrow := rfl
@[simp] theorem clearError_port : (s.clearError).port = s.port := rfl
@[simp] theorem clearError_response : (s.clearError).response = s.response := rfl
end clearError

section answer
variable (s : State) (r : Response)
@[simp] theorem answer_bits : (s.answer r).bits = s.bits := rfl
@[simp] theorem answer_resw : (s.answer r).resw = s.resw := rfl
@[simp] theorem answer_poly : (s.answer r).poly = s.poly := rfl
@[simp] theorem answer_init : (s.answer r).init = s.init := rfl
@[simp] theorem answer_acc : (s.answer r).acc = s.acc := rfl
@[simp] theorem answer_result : (s.answer r).result = s.result := rfl
@[simp] theorem answer_data : (s.answer r).data = s.data := rfl
@[simp] theorem answer_err : (s.answer r).err = s.err := rfl
@[simp] theorem answer_errcode : (s.answer r).errcode = s.errcode := rfl
@[simp] theorem answer_table : (s.answer r).table = s.table := rfl
@[simp] theorem answer_basePage : (s.answer r).basePage = s.basePage := rfl
@[simp] theorem answer_pNarrow : (s.answer r).pNarrow = s.pNarrow := rfl
@[simp] theorem answer_port : (s.answer r).port = s.port.tail := rfl
@[simp] theorem answer_response : (s.answer r).response = some r := rfl
end answer

section pushEvent
variable (s : State) (e : PortEvent)
@[simp] theorem pushEvent_bits : (s.pushEvent e).bits = s.bits := rfl
@[simp] theorem pushEvent_resw : (s.pushEvent e).resw = s.resw := rfl
@[simp] theorem pushEvent_poly : (s.pushEvent e).poly = s.poly := rfl
@[simp] theorem pushEvent_init : (s.pushEvent e).init = s.init := rfl
@[simp] theorem pushEvent_acc : (s.pushEvent e).acc = s.acc := rfl
@[simp] theorem pushEvent_result : (s.pushEvent e).result = s.result := rfl
@[simp] theorem pushEvent_data : (s.pushEvent e).data = s.data := rfl
@[simp] theorem pushEvent_err : (s.pushEvent e).err = s.err := rfl
@[simp] theorem pushEvent_errcode : (s.pushEvent e).errcode = s.errcode := rfl
@[simp] theorem pushEvent_table : (s.pushEvent e).table = s.table := rfl
@[simp] theorem pushEvent_basePage : (s.pushEvent e).basePage = s.basePage := rfl
@[simp] theorem pushEvent_pNarrow : (s.pushEvent e).pNarrow = s.pNarrow := rfl
@[simp] theorem pushEvent_port : (s.pushEvent e).port = e :: s.port := rfl
@[simp] theorem pushEvent_response : (s.pushEvent e).response = s.response := rfl
end pushEvent

section resetBlock
variable (s : State)
@[simp] theorem resetBlock_bits : (s.resetBlock).bits = State.reset.bits := rfl
@[simp] theorem resetBlock_resw : (s.resetBlock).resw = State.reset.resw := rfl
@[simp] theorem resetBlock_poly : (s.resetBlock).poly = State.reset.poly := rfl
@[simp] theorem resetBlock_init : (s.resetBlock).init = State.reset.init := rfl
@[simp] theorem resetBlock_acc : (s.resetBlock).acc = State.reset.acc := rfl
@[simp] theorem resetBlock_result : (s.resetBlock).result = State.reset.result := rfl
@[simp] theorem resetBlock_data : (s.resetBlock).data = State.reset.data := rfl
@[simp] theorem resetBlock_err : (s.resetBlock).err = State.reset.err := rfl
@[simp] theorem resetBlock_errcode : (s.resetBlock).errcode = State.reset.errcode := rfl
@[simp] theorem resetBlock_table : (s.resetBlock).table = State.reset.table := rfl
@[simp] theorem resetBlock_basePage : (s.resetBlock).basePage = s.basePage := rfl
@[simp] theorem resetBlock_pNarrow : (s.resetBlock).pNarrow = s.pNarrow := rfl
@[simp] theorem resetBlock_port : (s.resetBlock).port = s.port := rfl
@[simp] theorem resetBlock_response : (s.resetBlock).response = State.reset.response := rfl
end resetBlock

/-- The statements' own form of a command error is the machine's (60_exceptions.md R201). -/
theorem raiseCmdError_eq_raised (s : State) (e : CmdError) : s.raiseCmdError e = s.raised e.code := by
  simp only [State.raiseCmdError, State.raised]

end Sys2Proof.Machine
end

