-- ==== Sys2Proof/Laws/Ops.lean ====
section
/-! SUPPORT. What the shared operations of the commands do: the operand checks, the BITS check, the raise of
a command error, and the truncations. -/

namespace Sys2Proof.Machine

/-- The model's legality check is the spec's (10_state.md R23). -/
theorem legal_iff (s : State) : s.legal = true ↔ s.LegalBits := by
  unfold State.legal State.LegalBits bitsLegal State.crcWidth
  cases s.pNarrow
  · simp
  · simp; omega

theorem withBits_of_legal {s : State} (h : s.LegalBits) (k : Result) : withBits s k = k := by
  simp [withBits, (legal_iff s).2 h]

theorem withBits_of_illegal {s : State} (h : ¬ s.LegalBits) (k : Result) :
    withBits s k = .next (s.raised 2) := by
  have : s.legal = false := by
    cases hl : s.legal
    · rfl
    · exact absurd ((legal_iff s).1 hl) h
  simp [withBits, this, cmdError, raiseCmdError_eq_raised, CmdError.code]

/-- The BITS check: the command's own effect, or BADBITS (60_exceptions.md R203). -/
theorem withBits_cases (s : State) (k : Result) :
    (s.LegalBits ∧ withBits s k = k) ∨ (¬ s.LegalBits ∧ withBits s k = .next (s.raised 2)) := by
  by_cases h : s.LegalBits
  · exact .inl ⟨h, withBits_of_legal h k⟩
  · exact .inr ⟨h, withBits_of_illegal h k⟩

theorem withByte_of_lt {b : Nat} (h : b < 256) (k : Byte → Result) :
    withByte b k = k (BitVec.ofNat 8 b) := by simp [withByte, h]

theorem withCount_of_le {n : Nat} (h1 : 1 ≤ n) (h8 : n ≤ 8) (k : Result) : withCount n k = k := by
  simp [withCount, h1, h8]

theorem cmdError_eq (s : State) (e : CmdError) : cmdError s e = .next (s.raised e.code) := by
  rw [cmdError, raiseCmdError_eq_raised]

/-- Truncation to `k` bits is the value modulo `2^k`. -/
theorem trunc_eq_lowBits (k : Nat) (v : Word) : trunc k v = lowBits k v := by
  apply BitVec.eq_of_toNat_eq
  simp [trunc, lowBits, BitVec.toNat_setWidth]

theorem getLsbD_trunc (k : Nat) (v : Word) (i : Nat) :
    (trunc k v).getLsbD i = (decide (i < k) && v.getLsbD i) := by
  simp only [trunc, BitVec.getLsbD_setWidth]
  by_cases h : i < 64
  · simp [h]
  · simp [h, BitVec.getLsbD_of_ge v i (by omega)]

/-- A truncated value is its own truncation. -/
theorem trunc_trunc (k : Nat) (v : Word) : trunc k (trunc k v) = trunc k v := by
  apply BitVec.eq_of_getLsbD_eq
  intro i _
  simp only [getLsbD_trunc]
  cases decide (i < k) <;> simp

/-- The index of the table step is the low byte (42_update.md R141). -/
theorem nextIndex_eq (c : Word) (b : Byte) : nextIndex c b = entryIndex c b := by
  unfold nextIndex entryIndex
  rw [BitVec.toNat_and]
  exact Nat.and_two_pow_sub_one_eq_mod _ 8

/-- The index of the table step is in the table. -/
theorem nextIndex_lt (c : Word) (b : Byte) : nextIndex c b < 256 := by
  rw [nextIndex_eq]; exact Nat.mod_lt _ (by decide)

/-- The accumulator widths are the four buckets, and hold the CRC width (40_polynomial_forms.md R101). -/
theorem selw_cases (B : Nat) : selw B = 8 ∨ selw B = 16 ∨ selw B = 32 ∨ selw B = 64 := by
  unfold selw; split
  · exact .inl rfl
  · split
    · exact .inr (.inl rfl)
    · split
      · exact .inr (.inr (.inl rfl))
      · exact .inr (.inr (.inr rfl))

theorem le_selw {B : Nat} (h : B ≤ 64) : B ≤ selw B := by
  unfold selw; split
  · assumption
  · split
    · assumption
    · split
      · assumption
      · exact h

/-- The table step reads one entry (42_update.md R141). -/
theorem nextByte_of_some {m : Memory} {W : Nat} {c : Word} {b : Byte} {e : Word}
    (h : m.readEntry (entryIndex c b) = some e) :
    nextByte m W c b = .ok (lowBits W (e ^^^ (c >>> 8))) := by
  simp only [nextByte, nextIndex_eq, h, trunc_eq_lowBits]

theorem nextByte_of_none {m : Memory} {W : Nat} {c : Word} {b : Byte}
    (h : m.readEntry (entryIndex c b) = none) : nextByte m W c b = .error .tabUninit := by
  simp only [nextByte, nextIndex_eq, h]

/-- The table step raises nothing but TABUNINIT. -/
theorem nextByte_error {m : Memory} {W : Nat} {c : Word} {b : Byte} {e : CmdError}
    (h : nextByte m W c b = .error e) : e = .tabUninit := by
  unfold nextByte at h
  split at h <;> simp_all

theorem foldTable_error {m : Memory} {W : Nat} {e : CmdError} :
    ∀ {l : List Byte} {c : Word}, foldTable m W c l = .error e → e = .tabUninit
  | [], c, h => by simp [foldTable] at h
  | b :: l, c, h => by
    simp only [foldTable] at h
    split at h
    · rename_i e' he
      have := nextByte_error he
      simp_all
    · exact foldTable_error h

/-- The input bytes of a feed of `j + k`: the first `j`, then the first `k` of DATA shifted down by them
(43_stream.md R162). -/
theorem dataBytes_add (v : Word) (j k : Nat) :
    dataBytes v (j + k) = dataBytes v j ++ dataBytes (v >>> (8 * j)) k := by
  simp only [dataBytes, List.range_add, List.map_append, List.map_map]
  congr 1
  apply List.map_congr_left
  intro i _
  apply BitVec.eq_of_getLsbD_eq
  intro q hq
  simp only [Function.comp, byteAt, BitVec.getLsbD_extractLsb', hq, BitVec.getLsbD_ushiftRight]
  congr 2; omega

/-- A direct fold over two lists is the fold over the second from what the first leaves. -/
theorem foldDirect_append (B : Nat) (p : Word) (W : Nat) (l m : List Byte) (c : Word) :
    foldDirect B p W c (l ++ m) = foldDirect B p W (foldDirect B p W c l) m := by
  induction l generalizing c with
  | nil => rfl
  | cons b l ih => exact ih _

/-- A table fold over two lists, where the first goes through, is the fold over the second from what the
first leaves. -/
theorem foldTable_append {t : Memory} {W : Nat} {l m : List Byte} {c d : Word}
    (h : foldTable t W c l = .ok d) : foldTable t W c (l ++ m) = foldTable t W d m := by
  induction l generalizing c with
  | nil => injection h with h; subst h; rfl
  | cons b l ih =>
    simp only [List.cons_append, foldTable] at h ⊢
    split at h
    · cases h
    · exact ih h

end Sys2Proof.Machine
end

