-- ==== Sys2Proof/Laws/Step.lean ====
section
/-! SUPPORT. What one step can do, said once: the port's checks and the cases of an access. -/

namespace Sys2Proof.Machine

/-- An aligned 8-byte access in the window reaches what the layout says (20_memory.md R51 to R53). -/
theorem locate_ok (s : State) {off : Nat} (h : off < 0x1000) (ha : off % 8 = 0) :
    locate s (s.base + off) 8 = .ok (target off) := by
  have h1 : ¬ (s.base + off < s.base ∨ s.base + 0x1000 ≤ s.base + off) := by omega
  have h2 : s.base + off - s.base = off := by omega
  simp only [locate, h1, h2, ha, if_false, ne_eq, not_true_eq_false]

theorem step_nil {s : State} (h : s.port = []) : step s = .next s := by
  simp only [step, serve, h]

theorem step_access {s : State} {a : Access} {rest : List PortEvent} (h : s.Receives a rest) :
    step s = perform s a := by
  unfold State.Receives at h
  simp only [step, serve, h]

theorem step_reset {s : State} {rest : List PortEvent} (h : s.port = .reset :: rest) :
    step s = .next { s.resetBlock with port := rest } := by
  simp only [step, serve, h]

theorem step_resetDuring {s : State} {a : Access} {rest : List PortEvent}
    (h : s.port = .resetDuring a :: rest) : step s = .fault .cutByReset := by
  simp only [step, serve, h]

/-- A write of a command word to CMD runs it (20_memory.md R56; 30_encoding.md R80). -/
theorem perform_cmdWrite (s : State) (w : Word) :
    perform s (.write (s.base + 0x038) 8 w) = execute w (s.answer .writeDone) := by
  simp only [perform, locate_ok s (off := 0x038) (by decide) (by decide)]
  rfl

/-- What a step that goes on can be: no event, a read answered, a write performed, or a reset. -/
theorem step_next_cases {s t : State} (h : step s = .next t) :
    (s.port = [] ∧ t = s) ∨
    (∃ addr size v rest, s.Receives (.read addr size) rest ∧ t = s.answer (.readData v)) ∨
    (∃ addr size v rest tg, s.Receives (.write addr size v) rest ∧ locate s addr size = .ok tg ∧
      (s.answer .writeDone).writeTarget addr v tg = .next t) ∨
    (∃ rest, s.port = .reset :: rest ∧ t = { s.resetBlock with port := rest }) := by
  unfold step serve at h
  split at h
  · rename_i hp
    refine .inl ⟨hp, ?_⟩
    injection h with h; exact h.symm
  · rename_i a rest hp
    refine .inr ?_
    cases a with
    | read addr size =>
      refine .inl ?_
      simp only [perform] at h
      split at h
      · cases h
      · split at h
        · cases h
        · rename_i v hv
          injection h with h
          exact ⟨addr, size, v, rest, hp, h.symm⟩
    | write addr size v =>
      refine .inr (.inl ?_)
      simp only [perform] at h
      split at h
      · cases h
      · rename_i tg htg
        exact ⟨addr, size, v, rest, tg, hp, htg, h⟩
  · rename_i rest hp
    refine .inr (.inr (.inr ⟨rest, hp, ?_⟩))
    injection h with h; exact h.symm
  · cases h

/-- What an accepted access reaches (20_memory.md R50, R52, R53). -/
theorem locate_ok_cases {s : State} {addr size : Nat} {tg : Target} (h : locate s addr size = .ok tg) :
    ∃ off, off < 0x1000 ∧ off % 8 = 0 ∧ addr = s.base + off ∧ size = 8 ∧ tg = target off := by
  unfold locate at h
  split at h
  · cases h
  · split at h
    · cases h
    · split at h
      · cases h
      · injection h with h
        exact ⟨addr - s.base, by omega, by omega, by omega, by omega, h.symm⟩

/-- An entry the layout names is in the table. -/
theorem target_entry_lt {off n : Nat} (ho : off < 0x1000) (h : target off = .entry n) : n < 256 := by
  unfold target at h
  split at h
  · injection h with h; omega
  · split at h <;> cases h

/-- A write that goes on: what it did, by what it reached (20_memory.md R56, R60). -/
theorem writeTarget_next_cases {s t : State} {addr : Nat} {v : Word} {tg : Target}
    (h : s.writeTarget addr v tg = .next t) :
    t = s.setCfg v ∨ t = s.setPoly v ∨ t = s.setInit v ∨ t = s.setAcc v ∨ t = s.setData v ∨
    t = s.writeStatus v ∨ (tg = .reg .cmd ∧ execute v s = .next t) ∨
    (∃ n, tg = .entry n ∧ t = s.setTable (s.table.writeEntry n v)) := by
  cases tg with
  | hole => cases h
  | entry n =>
    injection h with h
    exact .inr (.inr (.inr (.inr (.inr (.inr (.inr ⟨n, rfl, h.symm⟩))))))
  | reg r =>
    cases r with
    | id => cases h
    | result => cases h
    | cfg => injection h with h; exact .inl h.symm
    | poly => injection h with h; exact .inr (.inl h.symm)
    | init => injection h with h; exact .inr (.inr (.inl h.symm))
    | acc => injection h with h; exact .inr (.inr (.inr (.inl h.symm)))
    | data => injection h with h; exact .inr (.inr (.inr (.inr (.inl h.symm))))
    | status => injection h with h; exact .inr (.inr (.inr (.inr (.inr (.inl h.symm)))))
    | cmd => exact .inr (.inr (.inr (.inr (.inr (.inr (.inl ⟨rfl, h⟩))))))

/-- What a command that goes on can do: raise one error, or one of its updates (30_encoding.md R80). -/
theorem exec_next_cases {i : Instr} {s t : State} (h : exec i s = .next t) :
    t = s ∧ i = .nop ∨
    (∃ e : CmdError, t = s.raiseCmdError e) ∨
    (∃ v, t = s.setResult v ∧ i ∈ [Instr.selw, .ones, .tokoop, .fromkoop, .revpoly, .finish]) ∨
    (∃ v, t = s.setPoly v ∧ i = .lddef) ∨
    (t = s.setTable (Memory.fill s.table (tabEntry s.crcWidth s.poly)) ∧ i = .gentab) ∨
    (∃ v, t = s.setAcc v ∧ i.mnemonic ∈ ["NEXT", "DSTEP", "START", "FEEDT", "FEEDD"]) := by
  have key : ∀ k : Result, withBits s k = .next t →
      k = .next t ∨ ∃ e : CmdError, t = s.raiseCmdError e := by
    intro k hk
    unfold withBits at hk
    split at hk
    · exact .inl hk
    · injection hk with hk; exact .inr ⟨_, hk.symm⟩
  cases i with
  | nop => injection h with h; exact .inl ⟨h.symm, rfl⟩
  | selw =>
    rcases key _ h with h | h
    · injection h with h; exact .inr (.inr (.inl ⟨_, h.symm, by simp⟩))
    · exact .inr (.inl h)
  | ones =>
    rcases key _ h with h | h
    · injection h with h; exact .inr (.inr (.inl ⟨_, h.symm, by simp⟩))
    · exact .inr (.inl h)
  | tokoop =>
    rcases key _ h with h | h
    · injection h with h; exact .inr (.inr (.inl ⟨_, h.symm, by simp⟩))
    · exact .inr (.inl h)
  | fromkoop =>
    rcases key _ h with h | h
    · injection h with h; exact .inr (.inr (.inl ⟨_, h.symm, by simp⟩))
    · exact .inr (.inl h)
  | revpoly =>
    rcases key _ h with h | h
    · injection h with h; exact .inr (.inr (.inl ⟨_, h.symm, by simp⟩))
    · exact .inr (.inl h)
  | finish =>
    rcases key _ h with h | h
    · split at h
      · injection h with h; exact .inr (.inr (.inl ⟨_, h.symm, by simp⟩))
      · injection h with h; exact .inr (.inl ⟨_, h.symm⟩)
    · exact .inr (.inl h)
  | lddef =>
    rcases key _ h with h | h
    · split at h
      · injection h with h; exact .inr (.inr (.inr (.inl ⟨_, h.symm, rfl⟩)))
      · injection h with h; exact .inr (.inl ⟨_, h.symm⟩)
    · exact .inr (.inl h)
  | gentab =>
    rcases key _ h with h | h
    · injection h with h; exact .inr (.inr (.inr (.inr (.inl ⟨h.symm, rfl⟩))))
    · exact .inr (.inl h)
  | start =>
    rcases key _ h with h | h
    · injection h with h; exact .inr (.inr (.inr (.inr (.inr ⟨_, h.symm, by simp [Instr.mnemonic]⟩))))
    · exact .inr (.inl h)
  | next b =>
    simp only [exec, execNext, withByte] at h
    split at h
    · rcases key _ h with h | h
      · split at h
        · injection h with h; exact .inr (.inr (.inr (.inr (.inr ⟨_, h.symm, by simp [Instr.mnemonic]⟩))))
        · injection h with h; exact .inr (.inl ⟨_, h.symm⟩)
      · exact .inr (.inl h)
    · cases h
  | dstep b =>
    simp only [exec, execDstep, withByte] at h
    split at h
    · rcases key _ h with h | h
      · injection h with h; exact .inr (.inr (.inr (.inr (.inr ⟨_, h.symm, by simp [Instr.mnemonic]⟩))))
      · exact .inr (.inl h)
    · cases h
  | feedt k =>
    simp only [exec, execFeedt, withCount] at h
    split at h
    · rcases key _ h with h | h
      · split at h
        · injection h with h; exact .inr (.inr (.inr (.inr (.inr ⟨_, h.symm, by simp [Instr.mnemonic]⟩))))
        · injection h with h; exact .inr (.inl ⟨_, h.symm⟩)
      · exact .inr (.inl h)
    · cases h
  | feedd k =>
    simp only [exec, execFeedd, withCount] at h
    split at h
    · rcases key _ h with h | h
      · injection h with h; exact .inr (.inr (.inr (.inr (.inr ⟨_, h.symm, by simp [Instr.mnemonic]⟩))))
      · exact .inr (.inl h)
    · cases h

/-- A command word that goes on ran its command or raised ILLEGAL (30_encoding.md R80). -/
theorem execute_next_cases {w : Word} {s t : State} (h : execute w s = .next t) :
    (∃ i, decode w = .ok i ∧ exec i s = .next t) ∨ t = s.raiseCmdError .illegal := by
  unfold execute at h
  split at h
  · rename_i i hi; exact .inl ⟨i, hi, h⟩
  · injection h with h; exact .inr h.symm

end Sys2Proof.Machine
end

