-- ==== Sys2Proof/Laws/PerInstr.lean ====
section
/-! SUPPORT. Facts about every command, one lemma a constructor (LAWS.json): the encoded word has its
reserved field 0 and its operation code where the opcode map has it (30_encoding.md R81, R84). -/

namespace Sys2Proof.Laws.EncodedFields

/-- The operation code of each command (30_encoding.md R84). -/
def opcode : Instr → Byte
  | .nop => 0x00
  | .selw => 0x01
  | .ones => 0x02
  | .tokoop => 0x03
  | .fromkoop => 0x04
  | .revpoly => 0x05
  | .lddef => 0x10
  | .gentab => 0x11
  | .next _ => 0x20
  | .dstep _ => 0x21
  | .start => 0x30
  | .feedt _ => 0x31
  | .feedd _ => 0x32
  | .finish => 0x33

/-- The word of a well-formed command has its reserved field 0 and its code in bits [7:0]. -/
def Statement (i : Instr) : Prop :=
  i.wellFormed = true → reservedField (encode i) = 0 ∧ opField (encode i) = opcode i

theorem byteWord : ∀ b < 256, reservedField (encodeCB 0x20 b) = 0 ∧ opField (encodeCB 0x20 b) = 0x20 ∧
    reservedField (encodeCB 0x21 b) = 0 ∧ opField (encodeCB 0x21 b) = 0x21 := by decide +kernel

theorem countWord : ∀ k < 9, 1 ≤ k →
    reservedField (encodeCN 0x31 k) = 0 ∧ opField (encodeCN 0x31 k) = 0x31 ∧
    reservedField (encodeCN 0x32 k) = 0 ∧ opField (encodeCN 0x32 k) = 0x32 := by decide +kernel

theorem nop : Statement .nop := fun _ => by decide
theorem selw : Statement .selw := fun _ => by decide
theorem ones : Statement .ones := fun _ => by decide
theorem tokoop : Statement .tokoop := fun _ => by decide
theorem fromkoop : Statement .fromkoop := fun _ => by decide
theorem revpoly : Statement .revpoly := fun _ => by decide
theorem lddef : Statement .lddef := fun _ => by decide
theorem gentab : Statement .gentab := fun _ => by decide
theorem next (b : Nat) : Statement (.next b) := fun h => by
  have := byteWord b (by simpa [Instr.wellFormed] using h)
  exact ⟨this.1, this.2.1⟩
theorem dstep (b : Nat) : Statement (.dstep b) := fun h => by
  have := byteWord b (by simpa [Instr.wellFormed] using h)
  exact ⟨this.2.2.1, this.2.2.2⟩
theorem start : Statement .start := fun _ => by decide
theorem feedt (k : Nat) : Statement (.feedt k) := fun h => by
  have h' : 1 ≤ k ∧ k ≤ 8 := by simpa [Instr.wellFormed] using h
  have := countWord k (by omega) h'.1
  exact ⟨this.1, this.2.1⟩
theorem feedd (k : Nat) : Statement (.feedd k) := fun h => by
  have h' : 1 ≤ k ∧ k ≤ 8 := by simpa [Instr.wellFormed] using h
  have := countWord k (by omega) h'.1
  exact ⟨this.2.2.1, this.2.2.2⟩
theorem finish : Statement .finish := fun _ => by decide

end Sys2Proof.Laws.EncodedFields
end

