-- ==== Sys2Proof/Tests/Slice0.lean ====
section
/-! SUPPORT. The model's own tests. Expected values are those of spec/95_test_vectors.md (named in each
comment) or are written out from the encoding tables of 30_encoding.md. After the tests stand the
witnesses: for each obligation with hypotheses, a state and operands that meet them. -/

namespace Sys2Proof.Tests

open Sys2Proof.Machine

/-! ### Helpers -/

/-- The reset state with CFG.BITS, POLY and ACC set. -/
def st (bits : BitVec 7) (poly acc : Word) : State :=
  { State.reset with bits := bits, poly := poly, acc := acc }

/-- The reset state with CFG.BITS set, under P_NARROW = reject. -/
def narrow (bits : BitVec 7) : State := { State.reset with bits := bits, pNarrow := .reject }

/-- `s` with one access at its port. -/
def receiving (s : State) (a : Access) : State := { s with port := [.access a] }

/-- A field of the state a command leaves. -/
def after {α : Type} (i : Instr) (s : State) (f : State → α) : Option α := (nextState? (exec i s)).map f

/-- A field of the state a step leaves after the access `a`. -/
def afterAccess {α : Type} (s : State) (a : Access) (f : State → α) : Option α :=
  (nextState? (step (receiving s a))).map f

/-- RESULT and STATUS as a read returns them, but for TFULL. -/
def resultError (s : State) : Word × Bool × BitVec 4 := (s.result, s.err, s.errcode)

/-- ACC and STATUS as a read returns them, but for TFULL. -/
def accError (s : State) : Word × Bool × BitVec 4 := (s.acc, s.err, s.errcode)

/-! ### WellFormed (30_encoding.md R82, R83, R89): every check refuses an ill-formed term -/

theorem test_wellFormed_next_refuses_256 : (Instr.next 256).wellFormed = false := by decide
theorem test_wellFormed_dstep_refuses_256 : (Instr.dstep 256).wellFormed = false := by decide
theorem test_wellFormed_feedt_refuses_0_and_9 :
    (Instr.feedt 0).wellFormed = false ∧ (Instr.feedt 9).wellFormed = false := by decide
theorem test_wellFormed_feedd_refuses_0_and_9 :
    (Instr.feedd 0).wellFormed = false ∧ (Instr.feedd 9).wellFormed = false := by decide
theorem test_wellFormed_accepts_the_ends :
    (Instr.next 255).wellFormed = true ∧ (Instr.dstep 0).wellFormed = true ∧
    (Instr.feedt 8).wellFormed = true ∧ (Instr.feedd 1).wellFormed = true := by decide

/-- A term with no encoding has no meaning (R89). -/
theorem test_exec_refuses_out_of_range :
    exec (.next 256) State.reset = .refused .operandOutOfRange ∧
    exec (.feedd 9) State.reset = .refused .operandOutOfRange := ⟨rfl, rfl⟩

/-! ### Decode: words written out from 30_encoding.md R81, R84 and "Encodings used by the programs" -/

theorem test_decode_polynomial_forms :
    decode 0x0000000000000001 = .ok .selw ∧ decode 0x0000000000000002 = .ok .ones ∧
    decode 0x0000000000000003 = .ok .tokoop ∧ decode 0x0000000000000004 = .ok .fromkoop ∧
    decode 0x0000000000000005 = .ok .revpoly := by decide
theorem test_decode_table :
    decode 0x0000000000000010 = .ok .lddef ∧ decode 0x0000000000000011 = .ok .gentab := by decide
theorem test_decode_update :
    decode 0x0000000000003920 = .ok (.next 0x39) ∧ decode 0x0000000000000221 = .ok (.dstep 2) ∧
    decode 0x000000000000FF20 = .ok (.next 0xFF) ∧ decode 0x0000000000000021 = .ok (.dstep 0) := by decide
theorem test_decode_stream :
    decode 0x0000000000000030 = .ok .start ∧ decode 0x0000000000030031 = .ok (.feedt 4) ∧
    decode 0x0000000000010032 = .ok (.feedd 2) ∧ decode 0x0000000000070032 = .ok (.feedd 8) ∧
    decode 0x0000000000000033 = .ok .finish := by decide
theorem test_decode_nop : decode 0x0000000000000000 = .ok .nop := by decide

/-- V44-3 to V44-6, V44-8 to V44-10: the words that match no row, with the reason. -/
theorem test_decode_rejects :
    decode 0x100 = .error .unusedImm8 ∧ decode 0x06 = .error .unassignedOp ∧
    decode 0xFF = .error .unassignedOp ∧ decode 0x102 = .error .unusedImm8 ∧
    decode 0x80031 = .error .reservedBits ∧ decode 0x10020 = .error .unusedNm1 ∧
    decode 0x8000000000000001 = .error .reservedBits := by decide

/-- The same words as the opcode table numbers them. -/
theorem test_decodeTableWord :
    decodeTableWord 64 0x3920 = some (.next 0x39) ∧ decodeTableWord 8 0x33 = some .finish ∧
    decodeTableWord 64 0x06 = none := by decide

/-! ### Polynomial forms -/

/-- V40-3. -/
theorem test_selw_9 : after .selw (st 9 0 0) resultError = some (0x10, false, 0) := by decide
/-- V40-9. -/
theorem test_selw_narrow : after .selw (narrow 1) resultError = some (0, true, 2) := by decide
/-- V40-17. -/
theorem test_ones_33 : after .ones (st 33 0 0) resultError = some (0x00000001FFFFFFFF, false, 0) := by decide
/-- V40-19. -/
theorem test_ones_64 : after .ones (st 64 0 0) resultError = some (0xFFFFFFFFFFFFFFFF, false, 0) := by decide
/-- V40-23. -/
theorem test_tokoop_64 : after .tokoop (st 64 0x42F0E1EBA9EA3693 0) resultError =
    some (0xA17870F5D4F51B49, false, 0) := by decide
/-- V40-27: POLY bits above the width do not matter. -/
theorem test_tokoop_high_bits : after .tokoop (st 16 0xFFFF8005 0) resultError = some (0xC002, false, 0) := by
  decide
/-- V40-31. -/
theorem test_fromkoop_64 : after .fromkoop (st 64 0xA17870F5D4F51B49 0) resultError =
    some (0x42F0E1EBA9EA3693, false, 0) := by decide
/-- V40-35. -/
theorem test_fromkoop_degree_bit : after .fromkoop (st 16 0x4002 0) resultError = some (0x8005, false, 0) := by
  decide
/-- V40-36, V-SRC-6. -/
theorem test_revpoly_32 : after .revpoly (st 32 0x04C11DB7 0) resultError = some (0xEDB88320, false, 0) := by
  decide +kernel
/-- V40-43. -/
theorem test_revpoly_window : after .revpoly (st 16 0xEDB88320 0) resultError = some (0x4C1, false, 0) := by
  decide +kernel

/-! ### Table generation -/

/-- V41-1. -/
theorem test_lddef_16 : after .lddef (st 16 0x1234 0) (fun t => (t.poly, t.err)) = some (0x8005, false) := by
  decide
/-- V41-4. -/
theorem test_lddef_64 : after .lddef (st 64 0x1234 0) (fun t => (t.poly, t.err, t.errcode)) =
    some (0x1234, true, 4) := by decide
/-- V41-8. -/
theorem test_gentab_64 : after .gentab (st 64 0x42F0E1EBA9EA3693 0) (fun t => t.table.readEntry 0x01) =
    some (some 0xB32E4CBE03A75F6F) := by decide +kernel
/-- V41-12, entries 0x80 and 0xFF: POLY without the constant term is not rejected. -/
theorem test_gentab_no_constant_term :
    tabEntry 16 0x8004 0x80 = 0x2001 ∧ tabEntry 16 0x8004 0xFF = 0x1540 := by decide +kernel

/-! ### Incremental update -/

/-- V42-24: a host-written entry is truncated to W. -/
theorem test_next_truncates :
    after (.next 1) { st 16 0x8005 0 with table := [(1, 0xFFFFFFFFFFFFFFFF)] } accError =
      some (0xFFFF, false, 0) := by decide
/-- V42-3 with the one entry it reads (V-TAB-16, 0x34). -/
theorem test_next_shifts :
    after (.next 0) { st 16 0x8005 0x1234 with table := [(0x34, 0xD701)] } accError =
      some (0xD713, false, 0) := by decide
/-- V42-20. -/
theorem test_dstep_12 : after (.dstep 0x5A) (st 12 0x80F 0xFFF) accError = some (0x46D, false, 0) := by
  decide +kernel
/-- V42-19: ACC bits above W are not read. -/
theorem test_dstep_high_acc :
    after (.dstep 1) (st 16 0x8005 0xFFFFFFFFFFFF0000) accError = some (0xC0C1, false, 0) := by decide +kernel

/-! ### Streaming -/

/-- V43-3: INIT is truncated to W = 16, not to BITS = 12. -/
theorem test_start_12 : after .start { st 12 0x80F 0 with init := 0xFFFF } accError =
    some (0xFFFF, false, 0) := by decide
/-- V43-2. -/
theorem test_start_truncates : after .start { st 16 0x8005 0x5555 with init := 0xABCD1234 } accError =
    some (0x1234, false, 0) := by decide
/-- V43-6, V-SRC-1 with the four entries it reads (V-TAB-16). -/
theorem test_feedt_4 :
    after (.feedt 4) { st 16 0x8005 0 with
      data := 0x04030201, table := [(0x01, 0xC0C1), (0x14, 0x0F00), (0x83, 0xA141), (0xC3, 0x5140)] } accError =
      some (0x0FA1, false, 0) := by decide
/-- V43-21 with the two entries it reads before the invalid one: ACC is left alone. -/
theorem test_feedt_all_or_nothing :
    after (.feedt 4) { st 16 0x8005 0x7777 with
      data := 0x04030201, table := [(0x76, 0xE681), (0xF4, 0x8701)] } accError =
      some (0x7777, true, 5) := by decide
/-- V43-16, V-SRC-4. -/
theorem test_feedd_64 :
    after (.feedd 4) { st 64 0x42F0E1EBA9EA3693 0 with data := 0x04030201 } accError =
      some (0xE51201F91A06376E, false, 0) := by decide +kernel
/-- V43-19. -/
theorem test_feedd_8_bytes :
    after (.feedd 8) { st 8 0x07 0 with data := 0x3837363534333231 } accError =
      some (0x8F, false, 0) := by decide +kernel
/-- V43-29. -/
theorem test_finish_narrows :
    after .finish { st 64 0 0xE51201F91A06376E with resw := 3 } resultError =
      some (0x1A06376E, false, 0) := by decide
/-- V43-31: BADBITS comes before BADRESW. -/
theorem test_finish_error_order :
    after .finish { st 0 0 1 with resw := 7 } resultError = some (0, true, 2) := by decide

/-! ### Control and illegal words -/

/-- V44-2. -/
theorem test_nop_illegal_bits : exec .nop (st 0 0 0x99) = .next (st 0 0 0x99) := rfl
/-- V44-11, V-BUS-18: ILLEGAL comes before BADBITS, and the write completes normally. -/
theorem test_illegal_word :
    afterAccess (st 0 0 0x99) (.write 0x038 8 0x06) (fun t => (accError t, t.response)) =
      some ((0x99, true, 1), some .writeDone) := by decide
/-- P4, steps 2 and 4: ERRCODE keeps the first error. -/
theorem test_first_error_kept :
    after .finish { st 16 0 0 with resw := 7, err := true, errcode := 2 } resultError =
      some (0, true, 2) := by decide

/-! ### The port -/

/-- V-BUS-1, V-BUS-2, V-BUS-3. -/
theorem test_reads_after_reset :
    afterAccess State.reset (.read 0x000 8) (·.response) = some (some (.readData 0x0000000143524345)) ∧
    afterAccess State.reset (.read 0x008 8) (·.response) = some (some (.readData 0x20)) ∧
    afterAccess State.reset (.read 0x038 8) (·.response) = some (some (.readData 0)) := by decide
/-- V-BUS-4: the write of all ones, then the value a read returns. -/
theorem test_cfg_stores_as_written :
    afterAccess State.reset (.write 0x008 8 0xFFFFFFFFFFFFFFFF) (fun t => (t.bits, t.resw, t.cfgWord)) =
      some (127, 7, 0x77F) := by decide
/-- V-BUS-6 without the full table. -/
theorem test_status_write_clears :
    afterAccess { State.reset with err := true, errcode := 5 } (.write 0x040 8 1) (fun t => (t.err, t.errcode)) =
      some (false, 0) := by decide
/-- V-BUS-8 to V-BUS-13 and V-BUS-16: the bus errors. -/
theorem test_bus_errors :
    fault? (step (receiving State.reset (.read 0x004 4))) = some (.badSize 0x004) ∧
    fault? (step (receiving State.reset (.read 0x00C 8))) = some (.misaligned 0x00C) ∧
    fault? (step (receiving State.reset (.write 0x000 8 0))) = some (.readOnlyRegister 0x000) ∧
    fault? (step (receiving State.reset (.write 0x028 8 1))) = some (.readOnlyRegister 0x028) ∧
    fault? (step (receiving State.reset (.read 0x048 8))) = some (.reservedOffset 0x048) ∧
    fault? (step (receiving State.reset (.read 0x7F8 8))) = some (.reservedOffset 0x7F8) ∧
    fault? (step (receiving State.reset (.read 0xFF8 8))) = some (.invalidEntry 0xFF8) ∧
    fault? (step (receiving State.reset (.write 0x038 4 0x11))) = some (.badSize 0x038) := by decide
/-- V-BUS-14. -/
theorem test_table_write_and_read :
    afterAccess State.reset (.write 0x808 8 0xDEADBEEF00000001) (·.table) = some [(1, 0xDEADBEEF00000001)] ∧
    afterAccess { State.reset with table := [(1, 0xDEADBEEF00000001)] } (.read 0x808 8) (·.response) =
      some (some (.readData 0xDEADBEEF00000001)) := by decide
/-- STATUS = 0x501 (V-RST-4): NEXT 0 right after reset. -/
theorem test_status_word_after_error :
    after (.next 0) State.reset (·.statusWord) = some 0x501 := by decide +kernel
/-- V-RST-1 for the registers the state holds: reset from any state. -/
theorem test_reset_event :
    (nextState? (step { st 7 5 9 with err := true, errcode := 3, table := [(4, 4)], port := [.reset] })) =
      some State.reset := by decide
/-- V-RST-5, by `withFetchWord`: LDDEF as the first command after reset. -/
theorem test_withFetchWord_lddef :
    (nextState? (step (State.reset.withFetchWord 64 0x10))).map (·.poly) = some 0x04C11DB7 := by decide
/-- P4, steps 8 and 13: a bus error leaves the state the next access finds. -/
theorem test_resume_after_bus_error :
    (receiving (st 16 0 0) (.read 0x804 8)).resumeAfter = { st 16 0 0 with response := some .errorResponse } := by
  decide

/-! ### The assembler -/

/-- P3, line 9 and 10: the DATA write, then the command. -/
theorem test_assemble_feed :
    assemble 0 (.feedtBytes [0x74, 0x65, 0x73, 0x74]) =
      some [.write 0x30 8 0x74736574, .write 0x38 8 0x30031] := by decide
/-- P3, line 15; P4, line 7; a byte above 255 is refused (R89). -/
theorem test_assemble_setcfg :
    assemble 0 (.setcfg 32 2) = some [.write 0x08 8 0x220] ∧ assemble 0 .clrerr = some [.write 0x40 8 1] ∧
    assemble 0 (.command (.next 256)) = none ∧ assemble 0 (.feedtBytes [256]) = none := by decide

/-! ### Witnesses: the hypotheses of each obligation are met by a state and operands -/

/-- The ends of the legal widths, and the illegal ones beside them (10_state.md R23). -/
theorem legal_ends : (st 1 0 0).LegalBits ∧ (st 64 0 0).LegalBits ∧ (narrow 2).LegalBits ∧
    ¬ (st 0 0 0).LegalBits ∧ ¬ (st 65 0 0).LegalBits ∧ ¬ (st 127 0 0).LegalBits ∧
    ¬ (narrow 1).LegalBits := by unfold State.LegalBits; decide

theorem witness_ResetSetsEveryRegister :
    ∃ s rest t, s.port = .reset :: rest ∧ step s = .next t :=
  ⟨{ st 7 5 9 with port := [.reset] }, [], _, rfl, rfl⟩

theorem witness_CommandsRightAfterReset :
    (receiving State.reset (.read 0x800 8)).Receives (.read (State.reset.base + 0x800 + 8 * 0) 8) [] ∧
    (receiving State.reset (.read 0xFF8 8)).Receives (.read (State.reset.base + 0x800 + 8 * 255) 8) [] ∧
    (receiving State.reset (.read 0x800 8)).table = State.reset.table := ⟨rfl, rfl, rfl⟩

theorem witness_AccessCutShortByReset :
    ∃ (s : State) (a : Access) (rest : List PortEvent), s.port = .resetDuring a :: rest :=
  ⟨{ st 7 5 9 with port := [.resetDuring (.write 0x038 8 0x11), .reset] }, _, _, rfl⟩

theorem witness_DecodeOfEncode :
    (Instr.next 0).wellFormed = true ∧ (Instr.dstep 255).wellFormed = true ∧
    (Instr.feedt 1).wellFormed = true ∧ (Instr.feedd 8).wellFormed = true := by decide

theorem witness_EncodeOfDecode : decode 0xFF20 = .ok (.next 255) ∧ decode 0x70032 = .ok (.feedd 8) := by decide

theorem witness_DecodeFollowsMatchAndMask :
    decode 0xFF21 = .ok (.dstep 255) ∧ (⟨"DSTEP", 0x21, maskCB⟩ : OpRow) ∈ opRows ∧
    (0xFF21 : Word) &&& maskCB = 0x21 := by decide

theorem witness_IllegalExactlyWhenNoRowMatches :
    ((0x06 : Word).extractLsb' 0 8).toNat ∉
      [0x00, 0x01, 0x02, 0x03, 0x04, 0x05, 0x10, 0x11, 0x20, 0x21, 0x30, 0x31, 0x32, 0x33] ∧
    (0x80031 : Word).extractLsb' 19 45 ≠ 0 ∧
    (((0x131 : Word).extractLsb' 0 8).toNat ∉ [0x20, 0x21] ∧ (0x131 : Word).extractLsb' 8 8 ≠ 0) ∧
    (((0x10020 : Word).extractLsb' 0 8).toNat ∉ [0x31, 0x32] ∧ (0x10020 : Word).extractLsb' 16 3 ≠ 0) ∧
    ¬ (((0x70031 : Word).extractLsb' 0 8).toNat ∉
        [0x00, 0x01, 0x02, 0x03, 0x04, 0x05, 0x10, 0x11, 0x20, 0x21, 0x30, 0x31, 0x32, 0x33] ∨
      (0x70031 : Word).extractLsb' 19 45 ≠ 0 ∨
      (((0x70031 : Word).extractLsb' 0 8).toNat ∉ [0x20, 0x21] ∧ (0x70031 : Word).extractLsb' 8 8 ≠ 0) ∨
      (((0x70031 : Word).extractLsb' 0 8).toNat ∉ [0x31, 0x32] ∧ (0x70031 : Word).extractLsb' 16 3 ≠ 0)) := by
  decide

theorem witness_StepRunsDecodedCommand :
    decode 0x33 = .ok .finish ∧ (receiving (st 16 0 5) (.write 0x038 8 0x33)).Receives
      (.write ((st 16 0 5).base + 0x038) 8 0x33) [] := ⟨by decide, rfl⟩

theorem witness_StepRaisesIllegal :
    (∀ i, decode 0x06 ≠ .ok i) ∧
    (receiving (st 16 0 5) (.write 0x038 8 0x06)).Receives (.write ((st 16 0 5).base + 0x038) 8 0x06) [] := by
  refine ⟨fun i => ?_, rfl⟩
  rw [show decode 0x06 = .error .unassignedOp by decide]
  exact fun h => nomatch h

theorem witness_StepTakesTheHeadOfThePort :
    (∃ t, step (receiving State.reset (.read 0x000 8)) = .next t) ∧ State.reset.port = [] := ⟨⟨_, rfl⟩, rfl⟩

theorem witness_StepKeepsParameters :
    ∃ s t, s.basePage = 3 ∧ s.pNarrow = .reject ∧ step s = .next t :=
  ⟨{ narrow 2 with basePage := 3, port := [.access (.write 0x3010 8 7)] }, _, rfl, rfl, rfl⟩

theorem witness_StepKeepsInvariant :
    ∃ s t, s.Inv ∧ s.table ≠ [] ∧ s.err = true ∧ step s = .next t :=
  ⟨{ receiving (st 16 0 0) (.write 0x808 8 1) with table := [(0, 9), (7, 9)], err := true, errcode := 5 },
    _, ⟨by decide, by decide, by decide⟩, by decide, rfl, rfl⟩

/-- A valid entry kept and an invalid one written, a valid one overwritten, and one changed by GENTAB. -/
theorem witness_TableChangesOnlyAsStated :
    (∃ s t : State, (∀ rest, s.port ≠ .reset :: rest) ∧ step s = .next t ∧
      (s.table.readEntry 0).isSome = true ∧ t.table.readEntry 255 ≠ s.table.readEntry 255) ∧
    (∃ s t : State, (∀ rest, s.port ≠ .reset :: rest) ∧ step s = .next t ∧
      (s.table.readEntry 0).isSome = true ∧ t.table.readEntry 0 ≠ s.table.readEntry 0) ∧
    (∃ s t : State, (∀ rest, s.port ≠ .reset :: rest) ∧ step s = .next t ∧
      t.table.readEntry 0 ≠ s.table.readEntry 0 ∧ t.table.readEntry 255 ≠ s.table.readEntry 255) := by
  refine ⟨⟨{ receiving (st 16 0 0) (.write 0xFF8 8 9) with table := [(0, 9)] }, _, by simp [receiving], rfl, ?_, ?_⟩,
    ⟨{ receiving (st 16 0 0) (.write 0x800 8 7) with table := [(0, 9)] }, _, by simp [receiving], rfl, ?_, ?_⟩,
    ⟨receiving (st 16 0 0) (.write 0x038 8 0x11), _, by simp [receiving], rfl, ?_, ?_⟩⟩
  · decide
  · decide
  · decide
  · decide
  · rw [setTable_table, readEntry_fill]
    exact fun h => nomatch h
  · rw [setTable_table, readEntry_fill]
    exact fun h => nomatch h

theorem witness_BadBitsRaised :
    (Instr.feedt 8).wellFormed = true ∧ Instr.feedt 8 ≠ .nop ∧ (st 0 0 0).bits.toNat = 0 ∧
    (65 ≤ (st 65 0 0).bits.toNat ∧ (st 65 0 0).bits.toNat ≤ 127) ∧
    (65 ≤ (st 127 0 0).bits.toNat ∧ (st 127 0 0).bits.toNat ≤ 127) ∧
    ((narrow 1).bits.toNat = 1 ∧ (narrow 1).pNarrow = .reject) := by decide

theorem witness_FailingCommandChangesStatusOnly :
    (∃ t, exec .start (st 16 0 0) = .next t) ∧ (∃ t, exec .start (st 0 0 0) = .next t) ∧
    (receiving (st 0 0 0) (.write 0x038 8 0x30)).Receives (.write ((st 0 0 0).base + 0x038) 8 0x30) [] :=
  ⟨⟨_, rfl⟩, ⟨_, rfl⟩, rfl⟩

theorem witness_EveryCommandCompletes :
    (Instr.next 255).wellFormed = true ∧ (Instr.next 256).wellFormed = false ∧
    (Instr.feedd 8).wellFormed = true ∧ (Instr.feedd 9).wellFormed = false := by decide

theorem witness_StatusWriteClearsError :
    (receiving (st 0 0 0) (.write 0x040 8 1)).Receives (.write ((st 0 0 0).base + 0x040) 8 1) [] ∧
    (1 : Word).getLsbD 0 = true ∧
    (receiving (st 0 0 0) (.write 0x040 8 0xFFFFFFFE)).Receives
      (.write ((st 0 0 0).base + 0x040) 8 0xFFFFFFFE) [] ∧
    (0xFFFFFFFE : Word).getLsbD 0 = false := ⟨rfl, by decide, rfl, by decide⟩

/-- Each pair of the list at the reset state, and the access that reads it, for the first and the last. -/
theorem witness_RegisterReadsReturn :
    (∀ p ∈ [((0x000 : Nat), (0x0000000143524345 : Word)), (0x008, 0x20), (0x040, 0)],
      p ∈ [(0x000, (0x0000000143524345 : Word)),
        (0x008, (State.reset.resw.setWidth 64 <<< 8) ||| State.reset.bits.setWidth 64),
        (0x010, State.reset.poly), (0x018, State.reset.init), (0x020, State.reset.acc),
        (0x028, State.reset.result), (0x030, State.reset.data), (0x038, 0),
        (0x040, ((if tfull State.reset.table then (1 : Word) else 0) <<< (16 : Nat)) |||
          (State.reset.errcode.setWidth 64 <<< (8 : Nat)) ||| (if State.reset.err then 1 else 0))]) ∧
    (receiving State.reset (.read 0x000 8)).Receives (.read (State.reset.base + 0x000) 8) [] ∧
    (receiving State.reset (.read 0x040 8)).Receives (.read (State.reset.base + 0x040) 8) [] :=
  ⟨by decide +kernel, rfl, rfl⟩

theorem witness_StatusReadReturnsFields :
    (receiving State.reset (.read 0x040 8)).Receives (.read (State.reset.base + 0x040) 8) [] := rfl

theorem witness_RegisterWritesStore : ∀ off ∈ [0x008, 0x010, 0x018, 0x020, 0x030, 0x038, 0x040, 0x000, 0x028],
    (receiving State.reset (.write off 8 1)).Receives (.write (State.reset.base + off) 8 1) [] := by
  intro off _
  simp [State.Receives, receiving, State.base, State.reset]

theorem witness_CfgReadsBackItsFields :
    ∃ s t v rest, s.Receives (.write (s.base + 0x008) 8 v) (.access (.read (s.base + 0x008) 8) :: rest) ∧
      step s = .next t :=
  ⟨{ State.reset with port := [.access (.write 0x008 8 0xFFFFFFFFFFFFFFFF), .access (.read 0x008 8)] },
    _, _, [], rfl, rfl⟩

/-- An invalid entry read, a valid one read, and one written, at the two ends of the window. -/
theorem witness_TableWindowReadsAndWrites :
    (∃ (s : State) (rest : List PortEvent), s.Receives (.read (s.base + 0x800 + 8 * 0) 8) rest ∧ s.table.readEntry 0 = none) ∧
    (∃ (s : State) (rest : List PortEvent) (v : Word), s.Receives (.read (s.base + 0x800 + 8 * 255) 8) rest ∧ s.table.readEntry 255 = some v) ∧
    (∃ (s : State) (rest : List PortEvent) (v : Word), s.Receives (.write (s.base + 0x800 + 8 * 255) 8 v) rest) :=
  ⟨⟨receiving State.reset (.read 0x800 8), [], rfl, rfl⟩,
    ⟨{ receiving State.reset (.read 0xFF8 8) with table := [(255, 9)] }, [], 9, rfl, rfl⟩,
    ⟨receiving State.reset (.write 0xFF8 8 9), [], 9, rfl⟩⟩

theorem witness_TableBytesAreLittleEndian :
    (255 < 256 ∧ 7 < 8) ∧ Memory.readEntry [(255, 0x8000000000000000)] 255 = some 0x8000000000000000 := by decide

/-- A wrong size, a misaligned access, and the two ends of the reserved hole. -/
theorem witness_BusErrorsFaultAndKeepState :
    (0x004 < 0x1000 ∧ (4 : Nat) ≠ 8 ∧
      (receiving State.reset (.read 0x004 4)).Receives (.read (State.reset.base + 0x004) 4) []) ∧
    (0xFFF < 0x1000 ∧ 0xFFF % 8 ≠ 0 ∧
      (receiving State.reset (.write 0xFFF 8 1)).Receives (.write (State.reset.base + 0xFFF) 8 1) []) ∧
    (0x048 ≤ 0x048 ∧ 0x048 < 0x800 ∧
      (receiving State.reset (.read 0x048 8)).Receives (.read (State.reset.base + 0x048) 8) []) ∧
    (0x048 ≤ 0x7F8 ∧ 0x7F8 < 0x800 ∧
      (receiving State.reset (.read 0x7F8 8)).Receives (.read (State.reset.base + 0x7F8) 8) []) :=
  ⟨⟨by decide, by decide, rfl⟩, ⟨by decide, by decide, rfl⟩, ⟨by decide, by decide, rfl⟩,
    ⟨by decide, by decide, rfl⟩⟩

theorem witness_AcceptedAccessesComplete :
    (0xFF8 % 8 = 0 ∧ 0xFF8 < 0x1000 ∧ ¬ (0x048 ≤ 0xFF8 ∧ 0xFF8 < 0x800) ∧
      (Memory.readEntry [(255, 9)] ((0xFF8 - 0x800) / 8)).isSome = true ∧
      ({ receiving State.reset (.read 0xFF8 8) with table := [(255, 9)] } : State).Receives
        (.read (State.reset.base + 0xFF8) 8) []) ∧
    (0x040 % 8 = 0 ∧ ¬ (0x048 ≤ 0x040 ∧ 0x040 < 0x800) ∧ 0x040 ≠ 0x000 ∧ 0x040 ≠ 0x028 ∧
      (receiving State.reset (.write 0x040 8 1)).Receives (.write (State.reset.base + 0x040) 8 1) []) :=
  ⟨⟨by decide, by decide, by decide, by decide, rfl⟩, by decide, by decide, by decide, by decide, rfl⟩

/-- The ends of the four buckets, and an illegal width. -/
theorem witness_SelwWritesTheBucket :
    (∀ b ∈ [1, 8, 9, 16, 17, 32, 33, 64], (st (BitVec.ofNat 7 b) 0 0).LegalBits ∧
      (st (BitVec.ofNat 7 b) 0 0).bits.toNat = b) ∧ ¬ (st 65 0 0).LegalBits := by
  unfold State.LegalBits; decide

theorem witness_OnesWritesTheMask : (st 64 0 0).LegalBits ∧ ¬ (st 0 0 0).LegalBits :=
  ⟨legal_ends.2.1, legal_ends.2.2.2.1⟩
theorem witness_TokoopWritesKoopmanForm : (st 1 0 0).LegalBits ∧ ¬ (narrow 1).LegalBits :=
  ⟨legal_ends.1, legal_ends.2.2.2.2.2.2⟩
theorem witness_FromkoopWritesNormalForm : (st 1 0 0).LegalBits ∧ ¬ (st 127 0 0).LegalBits :=
  ⟨legal_ends.1, legal_ends.2.2.2.2.2.1⟩
theorem witness_RevpolyMirrorsTheWindow : (st 64 0 0).LegalBits ∧ ¬ (st 65 0 0).LegalBits :=
  ⟨legal_ends.2.1, legal_ends.2.2.2.2.1⟩

theorem witness_KoopmanRoundTrip :
    (1 ≤ 1 ∧ 1 ≤ 64) ∧ (1 ≤ 64 ∧ 64 ≤ 64) ∧ (0x8005 : Word).getLsbD 0 = true ∧
    (0x8004 : Word).getLsbD 0 = false := by decide
theorem witness_KoopmanRoundTripOtherDirection : (1 ≤ 1 ∧ 1 ≤ 64) ∧ (1 ≤ 64 ∧ 64 ≤ 64) := by decide
theorem witness_ReversalIsInvolution : (1 ≤ 1 ∧ 1 ≤ 64) ∧ (1 ≤ 64 ∧ 64 ≤ 64) := by decide
theorem witness_PolynomialFormResultsAreBounded :
    (1 ≤ 1 ∧ 1 ≤ 64) ∧ (1 ≤ 64 ∧ 64 ≤ 64) ∧ (narrow 2).LegalBits :=
  ⟨by decide, by decide, legal_ends.2.2.1⟩

theorem witness_LddefLoadsTheDefault :
    (st 16 0 0).bits.toNat = 16 ∧ (st 32 0 0).bits.toNat = 32 ∧
    ((st 64 0 0).LegalBits ∧ (st 64 0 0).bits.toNat ≠ 16 ∧ (st 64 0 0).bits.toNat ≠ 32) ∧
    ¬ (st 0 0 0).LegalBits :=
  ⟨rfl, rfl, ⟨legal_ends.2.1, by decide, by decide⟩, legal_ends.2.2.2.1⟩

theorem witness_TableEntryFunction :
    (0xEDB88321 : Word).getLsbD 0 = true ∧ (0xEDB88320 : Word).getLsbD 0 = false ∧
    (1 ≤ 1 ∧ 1 ≤ 64 ∧ 255 < 256) := by decide

theorem witness_GentabWritesTheTable : (st 64 0 0).LegalBits ∧ ¬ (st 0 0 0).LegalBits :=
  ⟨legal_ends.2.1, legal_ends.2.2.2.1⟩

/-- The entry read valid, the entry read invalid, and an illegal width. -/
theorem witness_NextUpdatesAccumulator :
    255 < 256 ∧ (st 64 0 0).LegalBits ∧
    Memory.readEntry [(255, 9)] (entryIndex (lowBits (selw 64) 0) (BitVec.ofNat 8 255)) = some 9 ∧
    (st 64 0 0).table.readEntry (entryIndex (lowBits (selw 64) 0) (BitVec.ofNat 8 255)) = none ∧
    ¬ (st 0 0 0).LegalBits :=
  ⟨by decide, legal_ends.2.1, by decide, rfl, legal_ends.2.2.2.1⟩

theorem witness_DstepUpdatesAccumulator : 255 < 256 ∧ (st 1 0 0).LegalBits ∧ ¬ (narrow 1).LegalBits :=
  ⟨by decide, legal_ends.1, legal_ends.2.2.2.2.2.2⟩

/-- The entry of index 1 for BITS = 16, POLY = 0x8005 (V-TAB-16). -/
theorem witness_TableAndDirectStepAgree :
    1 < 256 ∧ (st 16 0x8005 0).LegalBits ∧ entryIndex (lowBits (selw 16) 0) (BitVec.ofNat 8 1) = 1 ∧
    Memory.readEntry [(1, 0xC0C1)] 1 = some (tabEntry 16 0x8005 1) := by
  unfold State.LegalBits; decide +kernel

theorem witness_UpdateStaysBelowWidth :
    (st 16 0x8005 0xFFFF).LegalBits ∧ (st 16 0x8005 0xFFFF).acc.toNat < 2 ^ (st 16 0x8005 0xFFFF).bits.toNat ∧
    (∃ t, exec (.dstep 255) (st 16 0x8005 0xFFFF) = .next t) ∧
    (∃ t, exec (.next 255) { st 16 0x8005 0xFFFF with table := [(0, 0)] } = .next t) ∧
    (∃ t, exec (.feedd 8) (st 16 0x8005 0xFFFF) = .next t) ∧
    (∃ t, exec (.feedt 1) { st 16 0x8005 0xFFFF with data := 0xFF, table := [(0, 0)] } = .next t) ∧
    (∀ n e, Memory.readEntry [(0, 0)] n = some e → e.toNat < 2 ^ 16) := by
  refine ⟨by unfold State.LegalBits; decide, by decide, ⟨_, rfl⟩, ⟨_, rfl⟩, ⟨_, rfl⟩, ⟨_, rfl⟩, ?_⟩
  intro n e h
  simp only [Memory.readEntry] at h
  split at h
  · injection h with h; subst h; decide
  · cases h

theorem witness_StartLoadsInit : (st 64 0 0).LegalBits ∧ ¬ (st 65 0 0).LegalBits :=
  ⟨legal_ends.2.1, legal_ends.2.2.2.2.1⟩

/-- V43-6 with two bytes: both entries valid; and with no table, where byte 0 stops it. -/
theorem witness_FeedtFoldsTheBytes :
    (∃ (s : State) (c : Nat → Word), s.LegalBits ∧ c 0 = lowBits (selw s.bits.toNat) s.acc ∧
      ∀ i < 2, ∃ e, s.table.readEntry (entryIndex (c i) (s.dataByte i)) = some e ∧
        c (i + 1) = lowBits (selw s.bits.toNat) (e ^^^ (c i >>> 8))) ∧
    ((st 16 0x8005 0).LegalBits ∧
      (st 16 0x8005 0).table.readEntry
        (entryIndex (lowBits (selw 16) 0) ((st 16 0x8005 0).dataByte 0)) = none) ∧
    ¬ (st 0 0 0).LegalBits := by
  refine ⟨⟨{ st 16 0x8005 0 with data := 0x0201, table := [(0x01, 0xC0C1), (0xC3, 0x5140)] },
    fun | 0 => 0 | 1 => 0xC0C1 | _ => 0x5180, by unfold State.LegalBits; decide, by decide, ?_⟩,
    ⟨by unfold State.LegalBits; decide, rfl⟩, legal_ends.2.2.2.1⟩
  intro i hi
  match i with
  | 0 => exact ⟨0xC0C1, by decide, by decide⟩
  | 1 => exact ⟨0x5140, by decide, by decide⟩

theorem witness_FeeddFoldsTheBytes :
    ∃ (s : State) (c : Nat → Word), s.LegalBits ∧ c 0 = lowBits (selw s.bits.toNat) s.acc ∧
      (∀ i < 1, c (i + 1) = lowBits (selw s.bits.toNat)
        (step8 (c i ^^^ (s.dataByte i).setWidth 64) (rev s.bits.toNat s.poly))) ∧ ¬ (st 0 0 0).LegalBits := by
  refine ⟨{ st 16 0x8005 0 with data := 0x01 }, fun | 0 => 0 | _ => 0xC0C1, by unfold State.LegalBits; decide,
    by decide, ?_, legal_ends.2.2.2.1⟩
  decide +kernel

/-- Seven bytes and then one, directly; and a table feed of two bytes, one and then one, over the two
host-supplied entries it reads. -/
theorem witness_FeedSplits :
    ((1 ≤ 7 ∧ 1 ≤ 1 ∧ 7 + 1 ≤ 8) ∧ (st 64 0 0).LegalBits) ∧
    (∃ (s : State) (c : Nat → Word), s.LegalBits ∧ c 0 = lowBits (selw s.bits.toNat) s.acc ∧
      ∀ i < 1 + 1, ∃ e, s.table.readEntry (entryIndex (c i) (s.dataByte i)) = some e ∧
        c (i + 1) = lowBits (selw s.bits.toNat) (e ^^^ (c i >>> 8))) := by
  refine ⟨⟨by decide, legal_ends.2.1⟩, { st 16 0x8005 0 with data := 0x0201, table := [(0x01, 0x1234), (0x36, 0x5)] },
    fun | 0 => 0 | 1 => 0x1234 | _ => 0x17, by unfold State.LegalBits; decide, by decide, ?_⟩
  intro i hi
  match i with
  | 0 => exact ⟨0x1234, by decide, by decide⟩
  | 1 => exact ⟨0x5, by decide, by decide⟩

/-- Each RESW code, the two ends of the reserved ones among them, and an illegal width. -/
theorem witness_FinishWritesResult :
    (∀ r : BitVec 3, ({ st 16 0 0 with resw := r } : State).LegalBits) ∧
    (5 ≤ (5 : BitVec 3).toNat ∧ 5 ≤ (7 : BitVec 3).toNat) ∧ ¬ (st 0 0 0).LegalBits := by
  unfold State.LegalBits; decide

/-- The state GENTAB leaves, and a fold of two feeds over it. -/
theorem witness_TableAndDirectFoldAgree :
    ∃ s t u : State, s.LegalBits ∧ exec .gentab s = .next t ∧ u.table = t.table ∧ u.bits = s.bits ∧ u.poly = s.poly ∧
      u.pNarrow = s.pNarrow ∧
      ∀ f ∈ [((0x0807060504030201 : Word), 8), (0x09, 1)], 1 ≤ f.2 ∧ f.2 ≤ 8 := by
  refine ⟨st 16 0x8005 0, _, _, by unfold State.LegalBits; decide, rfl, rfl, rfl, rfl, rfl, by decide⟩

theorem witness_EmptyFoldReturnsInit :
    (st 12 0 0).LegalBits ∧ ∀ r < 5, ∃ R, (R, BitVec.ofNat 3 r) ∈
      [(selw (st 12 0 0).bits.toNat, (0 : BitVec 3)), (8, 1), (16, 2), (32, 3), (64, 4)] := by
  refine ⟨by unfold State.LegalBits; decide, fun r hr => ?_⟩
  match r with
  | 0 => exact ⟨16, by decide⟩
  | 1 => exact ⟨8, by decide⟩
  | 2 => exact ⟨16, by decide⟩
  | 3 => exact ⟨32, by decide⟩
  | 4 => exact ⟨64, by decide⟩

theorem witness_NopChangesNothing : (0x100 : Word).extractLsb' 0 8 = 0 ∧ (0x100 : Word) ≠ 0 := by decide

theorem witness_ResultCommandsFrame :
    (∀ i ∈ [Instr.selw, .ones, .tokoop, .fromkoop, .revpoly, .finish],
      ∃ t, exec i (st 16 0x8005 1) = .next t) ∧
    (∃ t, exec .finish (st 0 0x8005 1) = .next t) := by
  refine ⟨?_, _, rfl⟩
  simp only [List.forall_mem_cons, List.not_mem_nil, false_imp_iff, implies_true, and_true]
  exact ⟨⟨_, rfl⟩, ⟨_, rfl⟩, ⟨_, rfl⟩, ⟨_, rfl⟩, ⟨_, rfl⟩, ⟨_, rfl⟩⟩

theorem witness_AccumulatorCommandsFrame :
    (∀ i ∈ [Instr.next 0, .dstep 255, .start, .feedt 1, .feedd 8],
      i.mnemonic ∈ ["NEXT", "DSTEP", "START", "FEEDT", "FEEDD"]) ∧
    (∀ i ∈ [Instr.next 0, .dstep 255, .start, .feedt 1, .feedd 8],
      ∃ t, exec i { st 16 0x8005 0 with table := [(0, 9)] } = .next t) := by
  refine ⟨by decide, ?_⟩
  simp only [List.forall_mem_cons, List.not_mem_nil, false_imp_iff, implies_true, and_true]
  exact ⟨⟨_, rfl⟩, ⟨_, rfl⟩, ⟨_, rfl⟩, ⟨_, rfl⟩, ⟨_, rfl⟩⟩

theorem witness_TableCommandsFrame :
    ∀ i ∈ [Instr.lddef, .gentab, .nop], ∃ t, exec i (st 16 0x8005 0) = .next t := by
  simp only [List.forall_mem_cons, List.not_mem_nil, false_imp_iff, implies_true, and_true]
  exact ⟨⟨_, rfl⟩, ⟨_, rfl⟩, ⟨_, rfl⟩⟩

theorem witness_ResultWidthReadByFinishAlone :
    Instr.start ≠ .finish ∧ ∃ t, exec .start (st 16 0 0) = .next t := ⟨by decide, _, rfl⟩

theorem witness_PolyBitsAboveWidthIgnored :
    (∀ j < (st 16 0x8005 0).bits.toNat,
      (0xFFFF8005 : Word).getLsbD j = (st 16 0x8005 0).poly.getLsbD j) ∧
    ∃ t, exec .tokoop (st 16 0x8005 0) = .next t := ⟨by decide, _, rfl⟩

theorem witness_AccumulatorBitsAboveWidthIgnored :
    lowBits (selw (st 12 0 0x1234).bits.toNat) 0xFFFF1234 =
      lowBits (selw (st 12 0 0x1234).bits.toNat) (st 12 0 0x1234).acc ∧
    lowBits (selw (st 12 0 0x1234).bits.toNat) 0xFFFF0000 =
      lowBits (selw (st 12 0 0x1234).bits.toNat) (st 12 0 0x1234).init ∧
    ∃ t, exec .finish (st 12 0 0x1234) = .next t := ⟨by decide, by decide, _, rfl⟩

end Sys2Proof.Tests
end

section
/-! SUPPORT. The laws the proofs of the family 10_state.md share: what an access to a register does, what a
step keeps, what can change the table, and which bits of its operands a command reads. -/

namespace Sys2Proof.Machine

/-! ### Accesses that reach a register or an entry (20_memory.md R51, R55, R56) -/

/-- Taking the head of the port and answering it, written out. -/
theorem answer_of_receives {s : State} {a : Access} {rest : List PortEvent} (h : s.Receives a rest)
    (r : Response) : s.answer r = { s with port := rest, response := some r } := by
  unfold State.Receives at h
  simp only [State.answer, h, List.tail_cons]

/-- An access at a register's offset reaches that register. -/
theorem locate_reg (s : State) (r : Reg) : locate s (s.base + r.offset) 8 = .ok (.reg r) := by
  cases r <;> exact locate_ok s (by decide) (by decide)

/-- A host read of a register returns what it reads as and changes nothing of the block (R55). -/
theorem step_readReg {s : State} {rest : List PortEvent} (r : Reg)
    (h : s.Receives (.read (s.base + r.offset) 8) rest) :
    step s = .next { s with port := rest, response := some (.readData (s.readReg r)) } := by
  rw [step_access h, ← answer_of_receives h]
  simp only [perform, locate_reg, State.readTarget]

/-- A host write to a register is `writeReg` on the state with the access taken and answered (R56). -/
theorem step_writeReg {s : State} {v : Word} {rest : List PortEvent} (r : Reg)
    (h : s.Receives (.write (s.base + r.offset) 8 v) rest) :
    step s = State.writeReg { s with port := rest, response := some .writeDone }
      (s.base + r.offset) v r := by
  rw [step_access h, ← answer_of_receives h]
  simp only [perform, locate_reg, State.writeTarget]

/-- CMD is at offset 0x038 alone (10_state.md R20). -/
theorem target_eq_cmd {off : Nat} (h : target off = .reg .cmd) : off = 0x038 := by
  unfold target at h
  split at h
  · cases h
  · unfold regAt at h
    split at h
    · rename_i hr
      split at hr <;> simp_all
    · cases h

/-- An entry is at its own offset alone (R51). -/
theorem target_eq_entry {off n : Nat} (ha : off % 8 = 0) (h : target off = .entry n) :
    off = 0x800 + 8 * n := by
  unfold target at h
  split at h
  · injection h with h
    omega
  · split at h <;> cases h

/-! ### The fields of STATUS and CFG, bit by bit (10_state.md R22, R33) -/

theorem getLsbD_flagBit (b : Bool) (i : Nat) : (flagBit b).getLsbD i = (decide (i = 0) && b) := by
  cases b <;> simp [flagBit, BitVec.getLsbD_one]

/-- Each bit of STATUS: TFULL at 16, ERRCODE from 8 on, ERR at 0. -/
theorem getLsbD_statusWord (s : State) (i : Nat) : s.statusWord.getLsbD i =
    (decide (i = 16) && tfull s.table || decide (8 ≤ i) && s.errcode.getLsbD (i - 8) ||
      decide (i = 0) && s.err) := by
  have herr (h : s.errcode.getLsbD (i - 8) = true) : i < 12 := by
    have := BitVec.lt_of_getLsbD h
    omega
  simp only [State.statusWord, getLsbD_flagBit, BitVec.getLsbD_or, BitVec.getLsbD_shiftLeft,
    BitVec.getLsbD_setWidth]
  grind

/-- A CFG that holds the fields of `v` reads as `v` with the reserved bits 0. -/
theorem cfgWord_of_fields {s : State} {v : Word} (hb : s.bits = v.extractLsb' 0 7)
    (hr : s.resw = v.extractLsb' 8 3) : s.cfgWord = v &&& 0x77F := by
  apply BitVec.eq_of_getLsbD_eq
  intro i hi
  have hmask : ∀ j < 64, (0x77F : Word).getLsbD j =
      (decide (j < 7) || decide (8 ≤ j) && decide (j < 11)) := by decide
  simp only [State.cfgWord, hb, hr, BitVec.getLsbD_or, BitVec.getLsbD_and, BitVec.getLsbD_shiftLeft,
    BitVec.getLsbD_setWidth, BitVec.getLsbD_extractLsb', hmask i hi]
  grind

/-! ### What every step keeps -/

/-- The predicate `P` is kept by every update a step is made of. -/
structure KeptByUpdates (P : State → Prop) : Prop where
  setCfg : ∀ s v, P s → P (s.setCfg v)
  setPoly : ∀ s v, P s → P (s.setPoly v)
  setInit : ∀ s v, P s → P (s.setInit v)
  setAcc : ∀ s v, P s → P (s.setAcc v)
  setResult : ∀ s v, P s → P (s.setResult v)
  setData : ∀ s v, P s → P (s.setData v)
  clearError : ∀ s, P s → P s.clearError
  raiseCmdError : ∀ s e, P s → P (s.raiseCmdError e)
  writeEntry : ∀ s n v, n < 256 → P s → P (s.setTable (s.table.writeEntry n v))
  fill : ∀ s f, P s → P (s.setTable (s.table.fill f))
  answer : ∀ s r, P s → P (s.answer r)
  reset : ∀ s rest, P s → P { s.resetBlock with port := rest }

section KeptByUpdates
variable {P : State → Prop} {s t : State}

theorem KeptByUpdates.exec (hP : KeptByUpdates P) {i : Instr} (hs : P s) (h : exec i s = .next t) :
    P t := by
  rcases exec_next_cases h with
    ⟨rfl, -⟩ | ⟨e, rfl⟩ | ⟨v, rfl, -⟩ | ⟨v, rfl, -⟩ | ⟨rfl, -⟩ | ⟨v, rfl, -⟩
  · exact hs
  · exact hP.raiseCmdError s e hs
  · exact hP.setResult s v hs
  · exact hP.setPoly s v hs
  · exact hP.fill s _ hs
  · exact hP.setAcc s v hs

theorem KeptByUpdates.execute (hP : KeptByUpdates P) {w : Word} (hs : P s)
    (h : execute w s = .next t) : P t := by
  rcases execute_next_cases h with ⟨i, -, h⟩ | rfl
  · exact hP.exec hs h
  · exact hP.raiseCmdError s _ hs

theorem KeptByUpdates.writeStatus (hP : KeptByUpdates P) (v : Word) (hs : P s) :
    P (s.writeStatus v) := by
  unfold State.writeStatus
  split
  · exact hP.clearError s hs
  · exact hs

theorem KeptByUpdates.writeTarget (hP : KeptByUpdates P) {addr : Nat} {v : Word} {tg : Target}
    (htg : ∀ n, tg = .entry n → n < 256) (hs : P s) (h : s.writeTarget addr v tg = .next t) : P t := by
  rcases writeTarget_next_cases h with
    rfl | rfl | rfl | rfl | rfl | rfl | ⟨-, h⟩ | ⟨n, hn, rfl⟩
  · exact hP.setCfg s v hs
  · exact hP.setPoly s v hs
  · exact hP.setInit s v hs
  · exact hP.setAcc s v hs
  · exact hP.setData s v hs
  · exact hP.writeStatus v hs
  · exact hP.execute hs h
  · exact hP.writeEntry s n v (htg n hn) hs

/-- What every update keeps, every step that goes on keeps. -/
theorem KeptByUpdates.step (hP : KeptByUpdates P) (hs : P s) (h : step s = .next t) : P t := by
  rcases step_next_cases h with
    ⟨-, rfl⟩ | ⟨_, _, v, _, -, rfl⟩ | ⟨_, _, v, _, tg, -, hloc, hw⟩ | ⟨rest, -, rfl⟩
  · exact hs
  · exact hP.answer s _ hs
  · obtain ⟨off, hoff, -, -, -, rfl⟩ := locate_ok_cases hloc
    exact hP.writeTarget (fun n hn => target_entry_lt hoff hn) (hP.answer s _ hs) hw
  · exact hP.reset s rest hs

end KeptByUpdates

/-! ### The invariant (10_state.md R35; 60_exceptions.md R202) -/

theorem CmdError.code_ne_zero (e : CmdError) : e.code ≠ 0 := by cases e <;> decide

theorem CmdError.toNat_code_le (e : CmdError) : e.code.toNat ≤ 5 := by cases e <;> decide

theorem inv_reset : State.reset.Inv := ⟨wf_nil, by decide, by decide⟩

/-- The first error records its code, a later one keeps the code that stands there (R201). -/
theorem inv_raiseCmdError {s : State} (e : CmdError) (h : s.Inv) : (s.raiseCmdError e).Inv := by
  obtain ⟨htable, hzero, hle⟩ := h
  refine ⟨htable, ?_⟩
  rw [raiseCmdError_err, raiseCmdError_errcode]
  cases herr : s.err with
  | false => simpa using ⟨e.code_ne_zero, e.toNat_code_le⟩
  | true => simpa [herr] using And.intro hzero hle

/-- The invariant reads the table and the error alone, so only the updates of those need an argument. -/
theorem inv_keptByUpdates : KeptByUpdates State.Inv where
  setCfg _ _ h := h
  setPoly _ _ h := h
  setInit _ _ h := h
  setAcc _ _ h := h
  setResult _ _ h := h
  setData _ _ h := h
  clearError _ h := ⟨h.1, by simp, by simp⟩
  raiseCmdError _ e h := inv_raiseCmdError e h
  writeEntry _ _ v hn h := ⟨wf_writeEntry v hn h.1, h.2⟩
  fill _ f h := ⟨wf_fill f h.1, h.2⟩
  answer _ _ h := h
  reset _ _ _ := inv_reset

/-! ### The parameters -/

/-- BASE is page `page` and P_NARROW is `narrow` (92_eei_decisions.md D18, D14). -/
def HasParameters (page : Nat) (narrow : Narrow) (s : State) : Prop :=
  s.basePage = page ∧ s.pNarrow = narrow

/-- No update writes a parameter, reset included (10_state.md R38). -/
theorem hasParameters_keptByUpdates (page : Nat) (narrow : Narrow) :
    KeptByUpdates (HasParameters page narrow) where
  setCfg _ _ h := h
  setPoly _ _ h := h
  setInit _ _ h := h
  setAcc _ _ h := h
  setResult _ _ h := h
  setData _ _ h := h
  clearError _ h := h
  raiseCmdError _ _ h := h
  writeEntry _ _ _ _ h := h
  fill _ _ h := h
  answer _ _ h := h
  reset _ _ h := h

/-! ### The word of GENTAB (30_encoding.md R84, R85) -/

/-- The four fields of R81 are the whole word. -/
theorem word_eq_of_fields {v w : Word} (hop : opField v = opField w) (himm : imm8Field v = imm8Field w)
    (hnm : nm1Field v = nm1Field w) (hres : reservedField v = reservedField w) : v = w := by
  have op := congrArg BitVec.toNat hop
  have imm := congrArg BitVec.toNat himm
  have nm := congrArg BitVec.toNat hnm
  have res := congrArg BitVec.toNat hres
  simp only [opField, imm8Field, nm1Field, reservedField, BitVec.extractLsb'_toNat,
    Nat.shiftRight_eq_div_pow] at op imm nm res
  apply BitVec.eq_of_toNat_eq
  omega

theorem decodeC0_ok {w : Word} {i j : Instr} (h : decodeC0 w i = .ok j) :
    j = i ∧ imm8Field w = 0 ∧ nm1Field w = 0 := by
  unfold decodeC0 at h
  split at h
  · cases h
  · split at h
    · cases h
    · rename_i himm hnm
      injection h with h
      exact ⟨h.symm, not_not.mp himm, not_not.mp hnm⟩

theorem decodeCB_ok {w : Word} {mk : Nat → Instr} {j : Instr} (h : decodeCB w mk = .ok j) :
    j = mk (imm8Field w).toNat ∧ nm1Field w = 0 := by
  unfold decodeCB at h
  split at h
  · cases h
  · rename_i hnm
    injection h with h
    exact ⟨h.symm, not_not.mp hnm⟩

theorem decodeCN_ok {w : Word} {mk : Nat → Instr} {j : Instr} (h : decodeCN w mk = .ok j) :
    j = mk ((nm1Field w).toNat + 1) ∧ imm8Field w = 0 := by
  unfold decodeCN at h
  split at h
  · cases h
  · rename_i himm
    injection h with h
    exact ⟨h.symm, not_not.mp himm⟩

/-- The one arm of the opcode map that answers GENTAB. -/
theorem decodeOp_eq_gentab {w : Word} (h : decodeOp w = .ok .gentab) :
    opField w = 0x11 ∧ imm8Field w = 0 ∧ nm1Field w = 0 := by
  unfold decodeOp at h
  split at h
  case h_8 hop => exact ⟨hop, (decodeC0_ok h).2⟩
  case h_1 | h_2 | h_3 | h_4 | h_5 | h_6 | h_7 | h_11 | h_14 => cases (decodeC0_ok h).1
  case h_9 | h_10 => cases (decodeCB_ok h).1
  case h_12 | h_13 => cases (decodeCN_ok h).1
  case h_15 => cases h

theorem decode_eq_gentab {w : Word} (h : decode w = .ok .gentab) : w = 0x11 := by
  unfold decode at h
  split at h
  · cases h
  · rename_i hres
    obtain ⟨hop, himm, hnm⟩ := decodeOp_eq_gentab h
    exact word_eq_of_fields hop himm hnm (not_not.mp hres)

/-! ### What can change the table (10_state.md R31; 41_table.md R126) -/

/-- The table after GENTAB at a legal BITS (41_table.md R123). -/
def State.generatedTable (s : State) : Memory := s.table.fill (tabEntry s.bits.toNat s.poly)

/-- A command keeps the table or is GENTAB at a legal BITS. -/
theorem exec_table_cases {i : Instr} {s t : State} (h : exec i s = .next t) :
    t.table = s.table ∨ (i = .gentab ∧ s.LegalBits ∧ t.table = s.generatedTable) := by
  rcases exec_next_cases h with
    ⟨rfl, -⟩ | ⟨e, rfl⟩ | ⟨v, rfl, -⟩ | ⟨v, rfl, -⟩ | ⟨-, rfl⟩ | ⟨v, rfl, -⟩
  · exact .inl rfl
  · exact .inl rfl
  · exact .inl rfl
  · exact .inl rfl
  · rcases withBits_cases s (.next (s.setTable s.generatedTable)) with ⟨hl, hk⟩ | ⟨-, hk⟩
    · cases hk.symm.trans h
      exact .inr ⟨rfl, hl, rfl⟩
    · cases hk.symm.trans h
      exact .inl rfl
  · exact .inl rfl

/-- A command word keeps the table or is the GENTAB word at a legal BITS. -/
theorem execute_table_cases {w : Word} {s t : State} (h : execute w s = .next t) :
    t.table = s.table ∨ (w = 0x11 ∧ s.LegalBits ∧ t.table = s.generatedTable) := by
  rcases execute_next_cases h with ⟨i, hi, h⟩ | rfl
  · rcases exec_table_cases h with hkeep | ⟨rfl, hl, ht⟩
    · exact .inl hkeep
    · exact .inr ⟨decode_eq_gentab hi, hl, ht⟩
  · exact .inl rfl

theorem writeStatus_table (s : State) (v : Word) : (s.writeStatus v).table = s.table := by
  unfold State.writeStatus
  split <;> rfl

/-- A write keeps the table, stores to an entry, or is a CMD write of the GENTAB word. -/
theorem writeTarget_table_cases {s t : State} {addr : Nat} {v : Word} {tg : Target}
    (h : s.writeTarget addr v tg = .next t) :
    t.table = s.table ∨ (∃ n, tg = .entry n ∧ t.table = s.table.writeEntry n v) ∨
    (tg = .reg .cmd ∧ v = 0x11 ∧ s.LegalBits ∧ t.table = s.generatedTable) := by
  rcases writeTarget_next_cases h with
    rfl | rfl | rfl | rfl | rfl | rfl | ⟨htg, h⟩ | ⟨n, htg, rfl⟩
  · exact .inl rfl
  · exact .inl rfl
  · exact .inl rfl
  · exact .inl rfl
  · exact .inl rfl
  · exact .inl (writeStatus_table s v)
  · exact (execute_table_cases h).imp_right fun hgen => .inr ⟨htg, hgen⟩
  · exact .inr (.inl ⟨n, htg, rfl⟩)

/-- A step that is no reset keeps the table, stores the value of a host write to an entry, or generates the
table for a CMD write of the GENTAB word. -/
theorem step_table_cases {s t : State} (hreset : ∀ rest, s.port ≠ .reset :: rest)
    (h : step s = .next t) :
    t.table = s.table ∨
    (∃ m v rest, s.Receives (.write (s.base + 0x800 + 8 * m) 8 v) rest ∧
      t.table = s.table.writeEntry m v) ∨
    (∃ rest, s.Receives (.write (s.base + 0x038) 8 0x11) rest ∧ s.LegalBits ∧
      t.table = s.generatedTable) := by
  rcases step_next_cases h with
    ⟨-, rfl⟩ | ⟨_, _, _, _, -, rfl⟩ | ⟨_, _, v, rest, _, hrec, hloc, hw⟩ | ⟨rest, hp, -⟩
  · exact .inl rfl
  · exact .inl rfl
  · obtain ⟨off, -, halign, rfl, rfl, rfl⟩ := locate_ok_cases hloc
    rcases writeTarget_table_cases hw with hkeep | ⟨m, htg, ht⟩ | ⟨htg, rfl, hl, ht⟩
    · exact .inl hkeep
    · rw [target_eq_entry halign htg, ← Nat.add_assoc] at hrec
      exact .inr (.inl ⟨m, v, rest, hrec, ht⟩)
    · rw [target_eq_cmd htg] at hrec
      exact .inr (.inr ⟨rest, hrec, hl, ht⟩)
  · exact absurd hp (hreset rest)

/-! ### The bits of POLY a function reads (10_state.md R25) -/

section PolyBits
variable {B : Nat} {p q : Word}

/-- Bit `B` of POLY would land in bit `B - 1`, which Koopman form sets anyway (40_polynomial_forms.md R103). -/
theorem toKoopman_congr (h : ∀ j < B, q.getLsbD j = p.getLsbD j) : toKoopman B q = toKoopman B p := by
  apply BitVec.eq_of_getLsbD_eq
  intro i hi
  simp only [toKoopman, ones, BitVec.getLsbD_and, BitVec.getLsbD_or, BitVec.getLsbD_ushiftRight,
    BitVec.getLsbD_shiftLeft, BitVec.getLsbD_ofNat, Nat.testBit_two_pow_sub_one]
  grind

theorem fromKoopman_congr (h : ∀ j < B, q.getLsbD j = p.getLsbD j) :
    fromKoopman B q = fromKoopman B p := by
  apply BitVec.eq_of_getLsbD_eq
  intro i hi
  simp only [fromKoopman, ones, BitVec.getLsbD_and, BitVec.getLsbD_or, BitVec.getLsbD_shiftLeft,
    BitVec.getLsbD_ofNat, Nat.testBit_two_pow_sub_one]
  grind

/-- `B` rounds of the loop read the low `B` bits. -/
theorem revLoop_congr (a : Word) (h : ∀ j < B, q.getLsbD j = p.getLsbD j) :
    revLoop B a q = revLoop B a p := by
  induction B generalizing a p q with
  | zero => rfl
  | succ n ih =>
    have hlow : q &&& 1 = p &&& 1 := by
      apply BitVec.eq_of_getLsbD_eq
      intro i hi
      simp only [BitVec.getLsbD_and]
      grind
    have hrest : ∀ j < n, (q >>> 1).getLsbD j = (p >>> 1).getLsbD j := fun j hj => by
      simpa only [BitVec.getLsbD_ushiftRight] using h (1 + j) (by omega)
    rw [revLoop, revLoop, hlow, ih _ hrest]

theorem rev_congr (h : ∀ j < B, q.getLsbD j = p.getLsbD j) : rev B q = rev B p := revLoop_congr 0 h

/-- A table entry depends on POLY by its reversed form alone. -/
theorem tabEntry_congr (h : rev B q = rev B p) : tabEntry B q = tabEntry B p := by
  funext n
  rw [tabEntry, tabEntry, h]

/-- A direct step depends on POLY by its reversed form alone. -/
theorem dstepByte_congr (h : rev B q = rev B p) (W : Nat) (c : Word) (b : Byte) :
    dstepByte B q W c b = dstepByte B p W c b := by
  rw [dstepByte, dstepByte, h]

theorem foldDirect_congr (h : rev B q = rev B p) (W : Nat) (c : Word) (l : List Byte) :
    foldDirect B q W c l = foldDirect B p W c l := by
  induction l generalizing c with
  | nil => rfl
  | cons b l ih => rw [foldDirect, foldDirect, dstepByte_congr h, ih]

end PolyBits

/-! ### The commands that write ACC, in one form -/

/-- The end of a command that writes ACC: the value computed, or the error met on the way. -/
def State.updateAcc (s : State) : Except CmdError Word → Result
  | .ok c => .next (s.setAcc c)
  | .error e => cmdError s e

theorem exec_start (s : State) :
    exec .start s = withBits s (s.updateAcc (.ok (trunc s.accWidth s.init))) := rfl

theorem exec_next (b : Nat) (s : State) : exec (.next b) s = withByte b fun byte =>
    withBits s (s.updateAcc (nextByte s.table s.accWidth s.accValue byte)) := rfl

theorem exec_dstep (b : Nat) (s : State) : exec (.dstep b) s = withByte b fun byte =>
    withBits s (s.updateAcc (.ok (dstepByte s.crcWidth s.poly s.accWidth s.accValue byte))) := rfl

theorem exec_feedt (k : Nat) (s : State) : exec (.feedt k) s = withCount k (withBits s
    (s.updateAcc (foldTable s.table s.accWidth s.accValue (dataBytes s.data k)))) := rfl

theorem exec_feedd (k : Nat) (s : State) : exec (.feedd k) s = withCount k (withBits s
    (s.updateAcc
      (.ok (foldDirect s.crcWidth s.poly s.accWidth s.accValue (dataBytes s.data k))))) := rfl

/-! ### Two runs that differ in a part of the state -/

/-- Wherever `r` goes on, `r'` goes on to the same state but for the part that `put` writes and `get` reads:
there both end with the same value, or `r` keeps what `s` has and `r'` keeps `x`. -/
def GoesOnAlike (put : Word → State → State) (get : State → Word) (s : State) (x : Word)
    (r r' : Result) : Prop :=
  ∀ t, r = .next t → ∃ x', r' = .next (put x' t) ∧ (x' = get t ∨ (get t = get s ∧ x' = x))

section GoesOnAlike
variable {put : Word → State → State} {get : State → Word} {s : State} {x : Word}

/-- Each run keeps its own value. -/
theorem GoesOnAlike.kept {t t' : State} (ht : t' = put x t) (hget : get t = get s) :
    GoesOnAlike put get s x (.next t) (.next t') := by
  rintro _ ⟨⟩
  exact ⟨x, congrArg _ ht, .inr ⟨hget, rfl⟩⟩

/-- Both runs end with the same value. -/
theorem GoesOnAlike.written {t t' : State} (ht : t' = put (get t) t) :
    GoesOnAlike put get s x (.next t) (.next t') := by
  rintro _ ⟨⟩
  exact ⟨get t, congrArg _ ht, .inl rfl⟩

theorem GoesOnAlike.withBits {u u' : State} {k k' : Result} (hlegal : u'.legal = u.legal)
    (herr : GoesOnAlike put get s x (cmdError u .badBits) (cmdError u' .badBits))
    (hk : GoesOnAlike put get s x k k') :
    GoesOnAlike put get s x (withBits u k) (withBits u' k') := by
  unfold Machine.withBits
  rw [hlegal]
  split
  · exact hk
  · exact herr

theorem GoesOnAlike.withByte {b : Nat} {k k' : Byte → Result}
    (hk : ∀ byte, GoesOnAlike put get s x (k byte) (k' byte)) :
    GoesOnAlike put get s x (withByte b k) (withByte b k') := by
  unfold Machine.withByte
  split
  · exact hk _
  · rintro _ ⟨⟩

theorem GoesOnAlike.withCount {n : Nat} {k k' : Result} (hk : GoesOnAlike put get s x k k') :
    GoesOnAlike put get s x (withCount n k) (withCount n k') := by
  unfold Machine.withCount
  split
  · exact hk
  · rintro _ ⟨⟩

end GoesOnAlike

/-- The second run starts with POLY = `q`. -/
abbrev PolyAlike (s : State) (q : Word) : Result → Result → Prop :=
  GoesOnAlike (fun v t => t.setPoly v) State.poly s q

theorem polyAlike_updateAcc (s : State) (q : Word) {r r' : Except CmdError Word} (hr : r' = r) :
    PolyAlike s q (s.updateAcc r) ((s.setPoly q).updateAcc r') := by
  subst hr
  cases r' with
  | ok c => exact .kept rfl rfl
  | error e => exact .kept rfl rfl

/-- A command that reads POLY reads it through `toKoopman`, `fromKoopman` or `rev`, and LDDEF writes it. -/
theorem polyAlike_exec (i : Instr) {s : State} {q : Word}
    (h : ∀ j < s.bits.toNat, q.getLsbD j = s.poly.getLsbD j) :
    PolyAlike s q (exec i s) (exec i (s.setPoly q)) := by
  have hrev : rev s.crcWidth q = rev s.crcWidth s.poly := rev_congr h
  have bits {k k' : Result} (hk : PolyAlike s q k k') :
      PolyAlike s q (withBits s k) (withBits (s.setPoly q) k') := .withBits rfl (.kept rfl rfl) hk
  cases i with
  | nop => exact .kept rfl rfl
  | selw => exact bits (.kept rfl rfl)
  | ones => exact bits (.kept rfl rfl)
  | tokoop => exact bits (.kept (congrArg (s.setPoly q).setResult (toKoopman_congr h)) rfl)
  | fromkoop => exact bits (.kept (congrArg (s.setPoly q).setResult (fromKoopman_congr h)) rfl)
  | revpoly => exact bits (.kept (congrArg (s.setPoly q).setResult hrev) rfl)
  | lddef =>
    refine bits ?_
    rw [show (s.setPoly q).crcWidth = s.crcWidth from rfl]
    cases defaultPoly s.crcWidth with
    | none => exact .kept rfl rfl
    | some p => exact .written rfl
  | gentab =>
    have htable : s.table.fill (tabEntry s.crcWidth q) = s.table.fill (tabEntry s.crcWidth s.poly) :=
      congrArg s.table.fill (tabEntry_congr hrev)
    exact bits (.kept (congrArg (s.setPoly q).setTable htable) rfl)
  | next b =>
    rw [exec_next, exec_next]
    exact .withByte fun byte => bits (polyAlike_updateAcc s q rfl)
  | dstep b =>
    rw [exec_dstep, exec_dstep]
    exact .withByte fun byte =>
      bits (polyAlike_updateAcc s q (congrArg Except.ok (dstepByte_congr hrev _ _ byte)))
  | start =>
    rw [exec_start, exec_start]
    exact bits (polyAlike_updateAcc s q rfl)
  | feedt k =>
    rw [exec_feedt, exec_feedt]
    exact .withCount (bits (polyAlike_updateAcc s q rfl))
  | feedd k =>
    rw [exec_feedd, exec_feedd]
    exact .withCount
      (bits (polyAlike_updateAcc s q (congrArg Except.ok (foldDirect_congr hrev _ _ _))))
  | finish =>
    refine bits ?_
    rw [show (s.setPoly q).resw = s.resw from rfl, show (s.setPoly q).accWidth = s.accWidth from rfl]
    cases resultWidth s.resw s.accWidth with
    | none => exact .kept rfl rfl
    | some R => exact .kept rfl rfl

/-- The second run starts with ACC = `a` and INIT = `n`. -/
abbrev AccAlike (s : State) (a n : Word) : Result → Result → Prop :=
  GoesOnAlike (fun v t => (t.setAcc v).setInit n) State.acc s a

theorem accAlike_updateAcc (s : State) (a n : Word) {r r' : Except CmdError Word} (hr : r' = r) :
    AccAlike s a n (s.updateAcc r) (((s.setAcc a).setInit n).updateAcc r') := by
  subst hr
  cases r' with
  | ok c => exact .written rfl
  | error e => exact .kept rfl rfl

/-- A command that reads ACC or INIT reads it truncated to W bits (10_state.md R27; 43_stream.md R161). -/
theorem accAlike_exec (i : Instr) {s : State} {a n : Word}
    (ha : trunc s.accWidth a = trunc s.accWidth s.acc)
    (hn : trunc s.accWidth n = trunc s.accWidth s.init) :
    AccAlike s a n (exec i s) (exec i ((s.setAcc a).setInit n)) := by
  have hval : ((s.setAcc a).setInit n).accValue = s.accValue := ha
  have bits {k k' : Result} (hk : AccAlike s a n k k') :
      AccAlike s a n (withBits s k) (withBits ((s.setAcc a).setInit n) k') :=
    .withBits rfl (.kept rfl rfl) hk
  cases i with
  | nop => exact .kept rfl rfl
  | selw => exact bits (.kept rfl rfl)
  | ones => exact bits (.kept rfl rfl)
  | tokoop => exact bits (.kept rfl rfl)
  | fromkoop => exact bits (.kept rfl rfl)
  | revpoly => exact bits (.kept rfl rfl)
  | lddef =>
    refine bits ?_
    rw [show ((s.setAcc a).setInit n).crcWidth = s.crcWidth from rfl]
    cases defaultPoly s.crcWidth with
    | none => exact .kept rfl rfl
    | some p => exact .kept rfl rfl
  | gentab => exact bits (.kept rfl rfl)
  | next b =>
    rw [exec_next, exec_next, hval]
    exact .withByte fun byte => bits (accAlike_updateAcc s a n rfl)
  | dstep b =>
    rw [exec_dstep, exec_dstep, hval]
    exact .withByte fun byte => bits (accAlike_updateAcc s a n rfl)
  | start =>
    rw [exec_start, exec_start]
    exact bits (accAlike_updateAcc s a n (congrArg Except.ok hn))
  | feedt k =>
    rw [exec_feedt, exec_feedt, hval]
    exact .withCount (bits (accAlike_updateAcc s a n rfl))
  | feedd k =>
    rw [exec_feedd, exec_feedd, hval]
    exact .withCount (bits (accAlike_updateAcc s a n rfl))
  | finish =>
    refine bits ?_
    rw [hval, show ((s.setAcc a).setInit n).resw = s.resw from rfl,
      show ((s.setAcc a).setInit n).accWidth = s.accWidth from rfl]
    cases resultWidth s.resw s.accWidth with
    | none => exact .kept rfl rfl
    | some R => exact .kept rfl rfl

end Sys2Proof.Machine
end

section
/-! PROOFS. The obligations of the family 10_state.md. -/

namespace Sys2Proof.Machine

/-- Settles O14: each update a step is made of keeps the invariant. -/
theorem stepKeepsInvariant : Obligations.StepKeepsInvariant :=
  fun _ _ hs h => inv_keptByUpdates.step hs h

/-- Settles O12: no update writes BASE or P_NARROW. -/
theorem stepKeepsParameters : Obligations.StepKeepsParameters :=
  fun s _ h => (hasParameters_keptByUpdates s.basePage s.pNarrow).step ⟨rfl, rfl⟩ h

/-- Settles O15: the table is kept, stored to at one entry, or generated whole. -/
theorem tableChangesOnlyAsStated : Obligations.TableChangesOnlyAsStated := by
  intro s t n hreset h
  rcases step_table_cases hreset h with ht | ⟨m, v, rest, hrec, ht⟩ | ⟨rest, hrec, hl, ht⟩
  · rw [ht]
    exact ⟨id, fun hne => absurd rfl hne⟩
  · rw [ht, readEntry_writeEntry]
    split
    · rename_i hnm
      subst hnm
      exact ⟨fun _ => rfl, fun _ => ⟨rest, .inl ⟨v, hrec, rfl⟩⟩⟩
    · exact ⟨id, fun hne => absurd rfl hne⟩
  · rw [ht, State.generatedTable, readEntry_fill]
    split
    · exact ⟨fun _ => rfl, fun _ => ⟨rest, .inr ⟨hrec, hl, rfl⟩⟩⟩
    · exact ⟨id, fun hne => absurd rfl hne⟩

/-- Settles O21: the value is STATUS, read bit by bit. -/
theorem statusReadReturnsFields : Obligations.StatusReadReturnsFields := by
  intro s rest h
  refine ⟨s.statusWord, step_readReg .status h, ?_, ?_, ?_, ?_⟩
  · simp only [getLsbD_statusWord]
    simp
  · apply BitVec.eq_of_getLsbD_eq
    intro i hi
    have h16 : 8 + i ≠ 16 := by omega
    simp [getLsbD_statusWord, hi, h16]
  · rw [← tfull_iff, getLsbD_statusWord]
    simp
  · intro i h0 h16 hcode
    have herr (h8 : 8 ≤ i) : s.errcode.getLsbD (i - 8) = false := BitVec.getLsbD_of_ge _ _ (by omega)
    simpa [getLsbD_statusWord, h0, h16] using herr

/-- Settles O23: the write stores the two fields, and CFG reads as they stand. -/
theorem cfgReadsBackItsFields : Obligations.CfgReadsBackItsFields := by
  intro s t v rest h hstep
  cases (step_writeReg .cfg h).symm.trans hstep
  refine ⟨rfl, rfl, _, step_readReg .cfg rfl, ?_⟩
  rw [State.readReg, cfgWord_of_fields rfl rfl]

/-- Settles O59: every function of POLY the commands compute reads its low BITS bits. -/
theorem polyBitsAboveWidthIgnored : Obligations.PolyBitsAboveWidthIgnored :=
  fun i _ t _ hq h => polyAlike_exec i hq t h

/-- Settles O60: the commands read ACC and INIT truncated to W bits. -/
theorem accumulatorBitsAboveWidthIgnored : Obligations.AccumulatorBitsAboveWidthIgnored := by
  intro i s t a n ha hn h
  simp only [← trunc_eq_lowBits] at ha hn
  exact accAlike_exec i ha hn t h

/-- Settles O13: the table is empty and no error is recorded. -/
theorem resetMeetsInvariant : Obligations.ResetMeetsInvariant := inv_reset

/-- Settles O19: the write is `writeStatus`, which looks at bit 0 alone. -/
theorem statusWriteClearsError : Obligations.StatusWriteClearsError := by
  intro s v rest h
  have hstep := step_writeReg .status h
  simp only [State.writeReg, State.writeStatus] at hstep
  constructor
  · intro hv
    rw [hstep, if_pos hv]
    rfl
  · intro hv
    rw [hstep, hv]
    rfl

end Sys2Proof.Machine
end

section
/-! SUPPORT. The laws the proofs of the family 20_memory.md share: the port's event after a step, what an
access to an entry does, the bytes a store leaves, and the accesses that are bus errors. -/

namespace Sys2Proof.Machine

/-! ### The port (20_memory.md R64) -/

theorem exec_port {i : Instr} {s t : State} (h : exec i s = .next t) : t.port = s.port := by
  rcases exec_next_cases h with
    ⟨rfl, -⟩ | ⟨e, rfl⟩ | ⟨v, rfl, -⟩ | ⟨v, rfl, -⟩ | ⟨rfl, -⟩ | ⟨v, rfl, -⟩
  · rfl
  · exact raiseCmdError_port ..
  · exact setResult_port ..
  · exact setPoly_port ..
  · exact setTable_port ..
  · exact setAcc_port ..

theorem execute_port {w : Word} {s t : State} (h : execute w s = .next t) : t.port = s.port := by
  rcases execute_next_cases h with ⟨i, -, h⟩ | rfl
  · exact exec_port h
  · exact raiseCmdError_port ..

theorem writeStatus_port (s : State) (v : Word) : (s.writeStatus v).port = s.port := by
  unfold State.writeStatus
  split
  · exact clearError_port s
  · rfl

theorem writeTarget_port {s t : State} {addr : Nat} {v : Word} {tg : Target}
    (h : s.writeTarget addr v tg = .next t) : t.port = s.port := by
  rcases writeTarget_next_cases h with
    rfl | rfl | rfl | rfl | rfl | rfl | ⟨-, h⟩ | ⟨n, -, rfl⟩
  · exact setCfg_port ..
  · exact setPoly_port ..
  · exact setInit_port ..
  · exact setAcc_port ..
  · exact setData_port ..
  · exact writeStatus_port s v
  · exact execute_port h
  · exact setTable_port ..

/-- A master that goes on after a bus error finds the block as it was (60_exceptions.md R210). -/
theorem resumeAfter_of_receives {s : State} {a : Access} {rest : List PortEvent}
    (h : s.Receives a rest) :
    s.resumeAfter = { s with port := rest, response := some .errorResponse } := by
  rw [← answer_of_receives h]
  unfold State.Receives at h
  simp only [State.resumeAfter, h]

/-! ### Accesses to an entry (20_memory.md R51, R60) -/

theorem locate_entry (s : State) {n : Nat} (hn : n < 256) :
    locate s (s.base + 0x800 + 8 * n) 8 = .ok (.entry n) := by
  have htarget : target (0x800 + 8 * n) = .entry n := by
    rw [target, if_pos (by omega)]
    congr 1
    omega
  rw [Nat.add_assoc, locate_ok s (by omega) (by omega), htarget]

theorem step_readEntry_of_none {s : State} {rest : List PortEvent} {n : Nat} (hn : n < 256)
    (h : s.Receives (.read (s.base + 0x800 + 8 * n) 8) rest) (hv : s.table.readEntry n = none) :
    step s = .fault (.invalidEntry (s.base + 0x800 + 8 * n)) := by
  rw [step_access h]
  simp only [perform, locate_entry s hn, State.readTarget, hv]

theorem step_readEntry_of_some {s : State} {rest : List PortEvent} {n : Nat} {v : Word} (hn : n < 256)
    (h : s.Receives (.read (s.base + 0x800 + 8 * n) 8) rest) (hv : s.table.readEntry n = some v) :
    step s = .next { s with port := rest, response := some (.readData v) } := by
  rw [step_access h, ← answer_of_receives h]
  simp only [perform, locate_entry s hn, State.readTarget, hv]

theorem step_writeEntry {s : State} {rest : List PortEvent} {n : Nat} {v : Word} (hn : n < 256)
    (h : s.Receives (.write (s.base + 0x800 + 8 * n) 8 v) rest) :
    step s = .next { s with
      table := s.table.writeEntry n v, port := rest, response := some .writeDone } := by
  rw [step_access h]
  simp only [perform, locate_entry s hn, State.writeTarget, answer_of_receives h, State.setTable]

/-! ### The bytes of the window (20_memory.md R54) -/

theorem readByte_entry (m : Memory) {n k : Nat} (hn : n < 256) (hk : k < 8) :
    m.readByte (0x800 + 8 * n + k) = (m.readEntry n).map (byteAt · k) := by
  have hindex : (0x800 + 8 * n + k - 0x800) / 8 = n := by omega
  have hbyte : (0x800 + 8 * n + k) % 8 = k := by omega
  rw [Memory.readByte, if_pos (by omega), hindex, hbyte]

/-- A store to an entry touches its own eight bytes alone. -/
theorem readByte_writeEntry_of_outside (m : Memory) {n off : Nat} (v : Word)
    (h : ¬ (0x800 + 8 * n ≤ off ∧ off < 0x800 + 8 * n + 8)) :
    (m.writeEntry n v).readByte off = m.readByte off := by
  unfold Memory.readByte
  split
  · have hne : (off - 0x800) / 8 ≠ n := by omega
    rw [readEntry_writeEntry_ne m v hne]
  · rfl

/-! ### Bus errors (20_memory.md R52, R53, R58) -/

theorem locate_badSize (s : State) {off size : Nat} (h : off < 0x1000) (hsize : size ≠ 8) :
    locate s (s.base + off) size = .error (.badSize (s.base + off)) := by
  rw [locate, if_neg (by omega), if_pos hsize]

theorem locate_misaligned (s : State) {off : Nat} (h : off < 0x1000) (halign : off % 8 ≠ 0) :
    locate s (s.base + off) 8 = .error (.misaligned (s.base + off)) := by
  rw [locate, if_neg (by omega), if_neg (by omega), if_pos (by omega)]

theorem regAt_eq_none {off : Nat} (h : 0x048 ≤ off) : regAt off = none := by
  unfold regAt
  split
  case h_10 => rfl
  all_goals omega

theorem target_eq_hole {off : Nat} (hlo : 0x048 ≤ off) (hhi : off < 0x800) : target off = .hole := by
  simp only [target, if_neg (Nat.not_le.mpr hhi), regAt_eq_none hlo]

/-- `a` is a read or a write of `size` bytes at `addr`. -/
def Access.IsAt (a : Access) (addr size : Nat) : Prop :=
  a = .read addr size ∨ ∃ v, a = .write addr size v

theorem perform_of_locate_error {s : State} {a : Access} {addr size : Nat} {f : Fault}
    (ha : a.IsAt addr size) (h : locate s addr size = .error f) : perform s a = .fault f := by
  rcases ha with rfl | ⟨v, rfl⟩
  · simp only [perform, h]
  · simp only [perform, h]

theorem perform_of_locate_hole {s : State} {a : Access} {addr size : Nat}
    (ha : a.IsAt addr size) (h : locate s addr size = .ok .hole) :
    perform s a = .fault (.reservedOffset addr) := by
  rcases ha with rfl | ⟨v, rfl⟩
  · simp only [perform, h, State.readTarget]
  · simp only [perform, h, State.writeTarget]

end Sys2Proof.Machine
end

section
/-! PROOFS. The obligations of the family 20_memory.md. -/

namespace Sys2Proof.Machine

/-- Settles O11: a read, a write and a reset each take the head, and no update of a write touches the port. -/
theorem stepTakesTheHeadOfThePort : Obligations.StepTakesTheHeadOfThePort := by
  refine ⟨fun s t h => ?_, fun s h => step_nil h⟩
  rcases step_next_cases h with
    ⟨hp, rfl⟩ | ⟨_, _, _, _, -, rfl⟩ | ⟨_, _, _, _, _, -, -, hw⟩ | ⟨rest, hp, rfl⟩
  · rw [hp, List.tail_nil]
  · exact answer_port ..
  · exact (writeTarget_port hw).trans (answer_port ..)
  · rw [hp, List.tail_cons]

/-- Settles O20: the nine pairs are the offsets of the registers with what each reads as. -/
theorem registerReadsReturn : Obligations.RegisterReadsReturn := by
  intro s rest off v hmem h
  have hreg : ∃ r : Reg, off = r.offset ∧ v = s.readReg r := by
    simp only [List.mem_cons, Prod.mk.injEq, List.not_mem_nil, or_false] at hmem
    rcases hmem with hr | hr | hr | hr | hr | hr | hr | hr | hr
    · exact ⟨.id, hr⟩
    · exact ⟨.cfg, hr⟩
    · exact ⟨.poly, hr⟩
    · exact ⟨.init, hr⟩
    · exact ⟨.acc, hr⟩
    · exact ⟨.result, hr⟩
    · exact ⟨.data, hr⟩
    · exact ⟨.cmd, hr⟩
    · exact ⟨.status, hr⟩
  obtain ⟨r, rfl, rfl⟩ := hreg
  exact step_readReg r h

/-- Settles O22: each clause is `writeReg` at its register. -/
theorem registerWritesStore : Obligations.RegisterWritesStore := by
  intro s v rest
  refine ⟨step_writeReg .cfg, step_writeReg .poly, step_writeReg .init, step_writeReg .acc,
    step_writeReg .data, step_writeReg .cmd, fun h => ?_, fun h => ?_, fun h => ?_⟩
  · rw [step_writeReg .status h, State.writeReg, State.writeStatus]
    split
    · rfl
    · rfl
  · exact ⟨step_writeReg .id h, resumeAfter_of_receives h⟩
  · exact ⟨step_writeReg .result h, resumeAfter_of_receives h⟩

/-- Settles O24: the new table is the old one with the one entry written. -/
theorem tableWindowReadsAndWrites : Obligations.TableWindowReadsAndWrites := by
  intro s rest n hn
  refine ⟨fun h => ⟨fun hv => ?_, fun v hv => step_readEntry_of_some hn h hv⟩, fun v h => ?_⟩
  · exact ⟨step_readEntry_of_none hn h hv, resumeAfter_of_receives h⟩
  · exact ⟨s.table.writeEntry n v, step_writeEntry hn h, readEntry_writeEntry_same s.table n v,
      fun _ hk => readEntry_writeEntry_ne s.table v hk,
      fun _ hoff => readByte_writeEntry_of_outside s.table v hoff⟩

/-- Settles O26: the port's checks in the order the model makes them, and the hole for what passes them. -/
theorem busErrorsFaultAndKeepState : Obligations.BusErrorsFaultAndKeepState := by
  intro s rest a off size hoff ha hbad h
  refine ⟨?_, resumeAfter_of_receives h⟩
  rw [step_access h]
  by_cases hsize : size = 8
  · subst hsize
    by_cases halign : off % 8 = 0
    · obtain ⟨hlo, hhi⟩ : 0x048 ≤ off ∧ off < 0x800 := by omega
      have hloc : locate s (s.base + off) 8 = .ok .hole := by
        rw [locate_ok s hoff halign, target_eq_hole hlo hhi]
      exact ⟨_, by simp, perform_of_locate_hole ha hloc⟩
    · exact ⟨_, by simp, perform_of_locate_error ha (locate_misaligned s hoff halign)⟩
  · exact ⟨_, by simp, perform_of_locate_error ha (locate_badSize s hoff hsize)⟩

/-- Settles O25: the offset names entry `n` and byte `k` of it. -/
theorem tableBytesAreLittleEndian : Obligations.TableBytesAreLittleEndian := by
  intro m n k v hn hk hv
  rw [readByte_entry m hn hk, hv]
  rfl

end Sys2Proof.Machine
end

section
/-! SUPPORT. The laws the proofs of the family 30_encoding.md share: which fields a row's match and mask
fixes, when a word decodes, what a CMD write runs, and that a command with an encoding completes. -/

namespace Sys2Proof.Machine

open Sys2Proof.Laws.EncodedFields (opcode)

/-! ### Match and mask, field by field (30_encoding.md R81, R85) -/

/-- The masked word is the pattern exactly where each of the four fields of R81 is. -/
theorem and_eq_iff_fields (w m p : Word) : w &&& m = p ↔
    opField w &&& opField m = opField p ∧ imm8Field w &&& imm8Field m = imm8Field p ∧
    nm1Field w &&& nm1Field m = nm1Field p ∧ reservedField w &&& reservedField m = reservedField p := by
  simp only [opField, imm8Field, nm1Field, reservedField, ← BitVec.extractLsb'_and]
  constructor
  · rintro rfl
    exact ⟨rfl, rfl, rfl, rfl⟩
  · rintro ⟨hop, himm, hnm, hres⟩
    exact word_eq_of_fields hop himm hnm hres

/-- The codes of form CB (30_encoding.md R84). -/
abbrev codesCB : List Byte := [0x20, 0x21]

/-- The codes of form CN (30_encoding.md R84). -/
abbrev codesCN : List Byte := [0x31, 0x32]

/-- The fourteen assigned codes, in the order of R84. -/
abbrev assignedCodes : List Byte :=
  [0x00, 0x01, 0x02, 0x03, 0x04, 0x05, 0x10, 0x11, 0x20, 0x21, 0x30, 0x31, 0x32, 0x33]

/-- Every field the form of the word's code does not use is 0 (30_encoding.md R81, R86). -/
structure UnusedFieldsZero (w : Word) : Prop where
  reserved : reservedField w = 0
  imm8 : opField w ∉ codesCB → imm8Field w = 0
  nm1 : opField w ∉ codesCN → nm1Field w = 0

/-- What a row's mask leaves free: IMM8 at the CB codes, NM1 at the CN codes, and nothing else; its pattern
is its code alone. -/
theorem opRow_fields : ∀ r ∈ opRows,
    (opField r.mask = BitVec.allOnes 8 ∧ reservedField r.mask = BitVec.allOnes 45 ∧
      imm8Field r.mask = (if opField r.pattern ∈ codesCB then 0 else BitVec.allOnes 8) ∧
      nm1Field r.mask = (if opField r.pattern ∈ codesCN then 0 else BitVec.allOnes 3)) ∧
    imm8Field r.pattern = 0 ∧ nm1Field r.pattern = 0 ∧ reservedField r.pattern = 0 := by decide

/-- A word satisfies a row exactly where its code is the row's and its unused fields are 0. -/
theorem opRow_match_iff {r : OpRow} (hr : r ∈ opRows) (w : Word) :
    w &&& r.mask = r.pattern ↔ opField w = opField r.pattern ∧ UnusedFieldsZero w := by
  obtain ⟨⟨mop, mres, mimm, mnm⟩, pimm, pnm, pres⟩ := opRow_fields r hr
  rw [and_eq_iff_fields, mop, mres, mimm, mnm, pimm, pnm, pres, BitVec.and_allOnes, BitVec.and_allOnes]
  constructor
  · rintro ⟨hop, himm, hnm, hres⟩
    refine ⟨hop, hres, fun h => ?_, fun h => ?_⟩
    · rwa [if_neg (hop ▸ h), BitVec.and_allOnes] at himm
    · rwa [if_neg (hop ▸ h), BitVec.and_allOnes] at hnm
  · rintro ⟨hop, hres, himm, hnm⟩
    refine ⟨hop, ?_, ?_, hres⟩
    · split
      · exact BitVec.and_zero
      · rw [BitVec.and_allOnes, himm (hop ▸ ‹_›)]
    · split
      · exact BitVec.and_zero
      · rw [BitVec.and_allOnes, hnm (hop ▸ ‹_›)]

/-- The rows differ in their codes (30_encoding.md R86). -/
theorem opRow_eq_of_code : ∀ r ∈ opRows, ∀ q ∈ opRows,
    opField r.pattern = opField q.pattern → r = q := by decide

theorem opRow_code_assigned : ∀ r ∈ opRows, opField r.pattern ∈ assignedCodes := by decide

/-- No word satisfies two rows: every mask covers OP. -/
theorem opRow_unique {w : Word} {r q : OpRow} (hr : r ∈ opRows) (hq : q ∈ opRows)
    (hwr : w &&& r.mask = r.pattern) (hwq : w &&& q.mask = q.pattern) : r = q :=
  opRow_eq_of_code r hr q hq
    (((opRow_match_iff hr w).1 hwr).1.symm.trans ((opRow_match_iff hq w).1 hwq).1)

/-- The row of a command has the command's name and code. -/
theorem exists_opRow_of_instr (i : Instr) :
    ∃ r ∈ opRows, r.mnemonic = i.mnemonic ∧ opField r.pattern = opcode i := by
  cases i <;> exact of_decide_eq_true rfl

/-! ### When a word decodes (30_encoding.md R86) -/

theorem decodeC0_of_fields {w : Word} (i : Instr) (himm : imm8Field w = 0) (hnm : nm1Field w = 0) :
    decodeC0 w i = .ok i := by
  rw [decodeC0, if_neg (not_not.mpr himm), if_neg (not_not.mpr hnm)]

theorem decodeCB_of_fields {w : Word} (mk : Nat → Instr) (hnm : nm1Field w = 0) :
    decodeCB w mk = .ok (mk (imm8Field w).toNat) := by
  rw [decodeCB, if_neg (not_not.mpr hnm)]

theorem decodeCN_of_fields {w : Word} (mk : Nat → Instr) (himm : imm8Field w = 0) :
    decodeCN w mk = .ok (mk ((nm1Field w).toNat + 1)) := by
  rw [decodeCN, if_neg (not_not.mpr himm)]

theorem byteOperandOk_imm8Field (w : Word) : byteOperandOk (imm8Field w).toNat = true :=
  decide_eq_true (imm8Field w).isLt

theorem countOk_nm1Field (w : Word) : countOk ((nm1Field w).toNat + 1) = true := by
  have := (nm1Field w).isLt
  simp only [countOk, Bool.and_eq_true, decide_eq_true_eq]
  omega

/-- A word that decodes has the code of its command, its unused fields 0 and operands in range. -/
theorem fields_of_decode {w : Word} {i : Instr} (h : decode w = .ok i) :
    opField w = opcode i ∧ UnusedFieldsZero w ∧ i.wellFormed = true := by
  unfold decode at h
  split at h
  · cases h
  · rename_i hres
    have hres := not_not.mp hres
    unfold decodeOp at h
    split at h
    case h_1 | h_2 | h_3 | h_4 | h_5 | h_6 | h_7 | h_8 | h_11 | h_14 =>
      obtain ⟨rfl, himm, hnm⟩ := decodeC0_ok h
      exact ⟨‹_›, ⟨hres, fun _ => himm, fun _ => hnm⟩, rfl⟩
    case h_9 hop | h_10 hop =>
      obtain ⟨rfl, hnm⟩ := decodeCB_ok h
      exact ⟨hop, ⟨hres, fun hcb => absurd (by simp [hop]) hcb, fun _ => hnm⟩, byteOperandOk_imm8Field w⟩
    case h_12 hop | h_13 hop =>
      obtain ⟨rfl, himm⟩ := decodeCN_ok h
      exact ⟨hop, ⟨hres, fun _ => himm, fun hcn => absurd (by simp [hop]) hcn⟩, countOk_nm1Field w⟩
    case h_15 => cases h

theorem exists_decode_of_fields {w : Word} (hcode : opField w ∈ assignedCodes)
    (hzero : UnusedFieldsZero w) : ∃ i, decode w = .ok i := by
  obtain ⟨hres, himm, hnm⟩ := hzero
  rw [decode, if_neg (not_not.mpr hres)]
  unfold decodeOp
  split
  case h_1 hop | h_2 hop | h_3 hop | h_4 hop | h_5 hop | h_6 hop | h_7 hop | h_8 hop | h_11 hop
    | h_14 hop =>
    rw [hop] at himm hnm
    exact ⟨_, decodeC0_of_fields _ (himm (by decide)) (hnm (by decide))⟩
  case h_9 hop | h_10 hop =>
    rw [hop] at hnm
    exact ⟨_, decodeCB_of_fields _ (hnm (by decide))⟩
  case h_12 hop | h_13 hop =>
    rw [hop] at himm
    exact ⟨_, decodeCN_of_fields _ (himm (by decide))⟩
  case h_15 => simp_all

theorem opcode_assigned (i : Instr) : opcode i ∈ assignedCodes := by
  obtain ⟨r, hr, -, hcode⟩ := exists_opRow_of_instr i
  exact hcode ▸ opRow_code_assigned r hr

/-- A word decodes exactly where its code is assigned and its unused fields are 0. -/
theorem exists_decode_iff (w : Word) :
    (∃ i, decode w = .ok i) ↔ opField w ∈ assignedCodes ∧ UnusedFieldsZero w := by
  constructor
  · rintro ⟨i, hi⟩
    obtain ⟨hop, hzero, -⟩ := fields_of_decode hi
    exact ⟨hop ▸ opcode_assigned i, hzero⟩
  · rintro ⟨hcode, hzero⟩
    exact exists_decode_of_fields hcode hzero

/-- A word that decodes satisfies the row of its command. -/
theorem opRow_match_of_decode {w : Word} {i : Instr} (h : decode w = .ok i) :
    ∃ r ∈ opRows, r.mnemonic = i.mnemonic ∧ w &&& r.mask = r.pattern := by
  obtain ⟨hop, hzero, -⟩ := fields_of_decode h
  obtain ⟨r, hr, hname, hcode⟩ := exists_opRow_of_instr i
  exact ⟨r, hr, hname, (opRow_match_iff hr w).2 ⟨hop.trans hcode.symm, hzero⟩⟩

/-- A word that satisfies a row decodes. -/
theorem exists_decode_of_opRow_match {w : Word} {r : OpRow} (hr : r ∈ opRows)
    (hw : w &&& r.mask = r.pattern) : ∃ i, decode w = .ok i := by
  obtain ⟨hop, hzero⟩ := (opRow_match_iff hr w).1 hw
  exact exists_decode_of_fields (hop ▸ opRow_code_assigned r hr) hzero

/-! ### What a CMD write runs (30_encoding.md R80) -/

theorem execute_of_decode {w : Word} {i : Instr} (h : decode w = .ok i) (s : State) :
    execute w s = exec i s := by
  rw [execute, h]

theorem execute_of_not_decode {w : Word} (h : ∀ i, decode w ≠ .ok i) (s : State) :
    execute w s = .next (s.raised 1) := by
  unfold execute
  split
  · exact absurd ‹_› (h _)
  · exact cmdError_eq s .illegal

/-- A CMD write at the head of the port runs its word on the state with that write taken and answered. -/
theorem step_cmdWrite {s : State} {w : Word} {rest : List PortEvent}
    (h : s.Receives (.write (s.base + 0x038) 8 w) rest) :
    step s = execute w { s with port := rest, response := some .writeDone } :=
  step_writeReg .cmd h

theorem withFetchWord_receives (s : State) (w : Word) :
    (s.withFetchWord 64 w.toNat).Receives (.write ((s.withFetchWord 64 w.toNat).base + 0x038) 8 w)
      s.port := by
  have hw : BitVec.ofNat 64 (w.toNat % 2 ^ 64) = w := by
    rw [Nat.mod_eq_of_lt w.isLt, BitVec.ofNat_toNat, BitVec.setWidth_eq]
  rw [State.withFetchWord, hw]
  rfl

/-! ### A command with an encoding completes (60_exceptions.md R201) -/

/-- The command ends in a next state. -/
def Completes (r : Result) : Prop := ∃ t, r = .next t

theorem completes_next (t : State) : Completes (.next t) := ⟨t, rfl⟩

theorem completes_cmdError (s : State) (e : CmdError) : Completes (cmdError s e) := ⟨_, rfl⟩

theorem completes_updateAcc (s : State) (r : Except CmdError Word) : Completes (s.updateAcc r) := by
  cases r with
  | ok c => exact completes_next _
  | error e => exact completes_cmdError s e

theorem Completes.withBits {s : State} {k : Result} (h : Completes k) : Completes (withBits s k) := by
  unfold Machine.withBits
  split
  · exact h
  · exact completes_cmdError s .badBits

theorem Completes.withByte {b : Nat} {k : Byte → Result} (hb : byteOperandOk b = true)
    (h : ∀ byte, Completes (k byte)) : Completes (withByte b k) := by
  rw [Machine.withByte, if_pos hb]
  exact h _

theorem Completes.withCount {n : Nat} {k : Result} (hn : countOk n = true) (h : Completes k) :
    Completes (withCount n k) := by
  rwa [Machine.withCount, if_pos hn]

theorem completes_lddef (s : State) : Completes (execLddef s) := by
  unfold execLddef
  apply Completes.withBits
  split
  · exact completes_next _
  · exact completes_cmdError s .noDef

theorem completes_finish (s : State) : Completes (execFinish s) := by
  unfold execFinish
  apply Completes.withBits
  split
  · exact completes_next _
  · exact completes_cmdError s .badResw

theorem completes_exec {i : Instr} (h : i.wellFormed = true) (s : State) : Completes (exec i s) := by
  cases i with
  | nop => exact completes_next s
  | selw | ones | tokoop | fromkoop | revpoly | gentab | start => exact (completes_next _).withBits
  | lddef => exact completes_lddef s
  | finish => exact completes_finish s
  | next b => exact .withByte h fun byte => (completes_updateAcc s _).withBits
  | dstep b => exact .withByte h fun byte => (completes_updateAcc s (.ok _)).withBits
  | feedt k => exact .withCount h (completes_updateAcc s _).withBits
  | feedd k => exact .withCount h (completes_updateAcc s (.ok _)).withBits

theorem withByte_refused {b : Nat} (h : byteOperandOk b = false) (k : Byte → Result) :
    withByte b k = .refused .operandOutOfRange := by
  rw [withByte, h]
  rfl

theorem withCount_refused {n : Nat} (h : countOk n = false) (k : Result) :
    withCount n k = .refused .operandOutOfRange := by
  rw [withCount, h]
  rfl

/-- A command whose operand has no encoding is refused, never wrapped (30_encoding.md R89). -/
theorem exec_refused {i : Instr} (h : i.wellFormed = false) (s : State) :
    exec i s = .refused .operandOutOfRange := by
  cases i with
  | next b => rw [exec_next, withByte_refused h]
  | dstep b => rw [exec_dstep, withByte_refused h]
  | feedt k => rw [exec_feedt, withCount_refused h]
  | feedd k => rw [exec_feedd, withCount_refused h]
  | _ => cases h

end Sys2Proof.Machine
end

section
/-! PROOFS. The obligations of the family 30_encoding.md. -/

namespace Sys2Proof.Machine

/-- Settles O7: a row's match and mask fix the fields the decoder tests, and the codes of the rows differ. -/
theorem decodeFollowsMatchAndMask : Obligations.DecodeFollowsMatchAndMask := by
  refine ⟨fun w i => opRow_match_of_decode, fun w r hr hw => ?_, fun w r q => opRow_unique⟩
  obtain ⟨i, hi⟩ := exists_decode_of_opRow_match hr hw
  obtain ⟨q, hq, hname, hwq⟩ := opRow_match_of_decode hi
  exact ⟨i, hi, opRow_unique hr hq hw hwq ▸ hname.symm⟩

/-- Settles O8: the four cases are an unassigned code or an unused field that is not 0, so outside them the
word decodes. -/
theorem illegalExactlyWhenNoRowMatches : Obligations.IllegalExactlyWhenNoRowMatches := by
  intro w s op illegal
  have mem_codes (l : List Byte) : op ∈ l.map BitVec.toNat ↔ opField w ∈ l :=
    List.mem_map_of_injective BitVec.toNat_injective
  refine ⟨fun hbad => execute_of_not_decode (fun i hi => ?_) s, fun hgood => ?_⟩
  · obtain ⟨hcode, hzero⟩ := (exists_decode_iff w).1 ⟨i, hi⟩
    rcases hbad with hop | hres | ⟨hop, himm⟩ | ⟨hop, hnm⟩
    · exact hop ((mem_codes assignedCodes).2 hcode)
    · exact hres hzero.reserved
    · exact himm (hzero.imm8 ((mem_codes codesCB).not.1 hop))
    · exact hnm (hzero.nm1 ((mem_codes codesCN).not.1 hop))
  · simp only [illegal, not_or, not_and, not_not] at hgood
    obtain ⟨hop, hres, himm, hnm⟩ := hgood
    have hzero : UnusedFieldsZero w :=
      ⟨hres, fun h => himm ((mem_codes codesCB).not.2 h), fun h => hnm ((mem_codes codesCN).not.2 h)⟩
    obtain ⟨i, hi⟩ := exists_decode_of_fields ((mem_codes assignedCodes).1 hop) hzero
    obtain ⟨-, -, hwf⟩ := fields_of_decode hi
    obtain ⟨r, hr, hname, hw⟩ := opRow_match_of_decode hi
    exact ⟨i, hi, hwf, execute_of_decode hi s, r, hr, hname, hw,
      fun q hq hwq => opRow_unique hq hr hwq hw⟩

/-- Settles O18: an error completes too, and only an operand out of range is refused. -/
theorem everyCommandCompletes : Obligations.EveryCommandCompletes := fun _ s =>
  ⟨fun h => completes_exec h s, fun h => exec_refused h s⟩

/-- Settles O9: the CMD write executes its word. -/
theorem stepRunsDecodedCommand : Obligations.StepRunsDecodedCommand := by
  refine ⟨fun s w i rest hi h => ?_, fun s w i hi => ?_⟩
  · exact (step_cmdWrite h).trans (execute_of_decode hi _)
  · exact (step_cmdWrite (withFetchWord_receives s w)).trans (execute_of_decode hi _)

/-- Settles O10: executing a word that does not decode raises ILLEGAL. -/
theorem stepRaisesIllegal : Obligations.StepRaisesIllegal := fun _ _ _ hw h =>
  (step_cmdWrite h).trans (execute_of_not_decode hw _)

end Sys2Proof.Machine
end

section
/-! SUPPORT. The laws the proofs of the family 40_polynomial_forms.md share: every bit of a polynomial form,
its bound, and what a command that writes one does. -/

namespace Sys2Proof.Machine

/-! ### The forms bit by bit (40_polynomial_forms.md R102 to R105) -/

theorem getLsbD_wordOne (i : Nat) : (1 : Word).getLsbD i = decide (i = 0) := by
  simp

theorem getLsbD_wordOne_shiftLeft {k : Nat} (hk : k < 64) (i : Nat) :
    ((1 : Word) <<< k).getLsbD i = decide (k = i) := by
  rw [show (1 : Word) <<< k = BitVec.twoPow 64 k from (BitVec.twoPow_eq 64 k).symm,
    BitVec.getLsbD_twoPow, decide_eq_true hk, Bool.true_and]

theorem toNat_ones {B : Nat} (h : B ≤ 64) : (ones B).toNat = 2 ^ B - 1 := by
  have hpow : 2 ^ B ≤ 2 ^ 64 := Nat.pow_le_pow_right (by decide) h
  rw [ones, BitVec.toNat_ofNat, Nat.mod_eq_of_lt (by omega)]

theorem getLsbD_ones {B : Nat} (h : B ≤ 64) (i : Nat) : (ones B).getLsbD i = decide (i < B) := by
  rw [← BitVec.testBit_toNat, toNat_ones h, Nat.testBit_two_pow_sub_one]

theorem getLsbD_ones_zero {B : Nat} (h1 : 1 ≤ B) (h64 : B ≤ 64) : (ones B).getLsbD 0 = true :=
  (getLsbD_ones h64 0).trans (decide_eq_true h1)

theorem getLsbD_toKoopman {B : Nat} (p : Word) (h1 : 1 ≤ B) (h64 : B ≤ 64) (i : Nat) :
    (toKoopman B p).getLsbD i = if i + 1 < B then p.getLsbD (i + 1) else decide (i + 1 = B) := by
  simp only [toKoopman, BitVec.getLsbD_and, BitVec.getLsbD_or, BitVec.getLsbD_ushiftRight,
    getLsbD_wordOne_shiftLeft (show B - 1 < 64 by omega), getLsbD_ones h64, Nat.add_comm 1 i]
  by_cases htop : i + 1 = B
  · subst htop
    simp
  · have hne : B - 1 ≠ i := by omega
    have hlt : i < B ↔ i + 1 < B := by omega
    simp [htop, hne, hlt, Bool.and_comm]

theorem getLsbD_fromKoopman_zero {B : Nat} (p : Word) (h1 : 1 ≤ B) (h64 : B ≤ 64) :
    (fromKoopman B p).getLsbD 0 = true := by
  simp only [fromKoopman, BitVec.getLsbD_and, BitVec.getLsbD_or, getLsbD_wordOne,
    getLsbD_ones_zero h1 h64, decide_true, Bool.or_true, Bool.and_true]

theorem getLsbD_fromKoopman_succ {B : Nat} (p : Word) (h64 : B ≤ 64) (i : Nat) :
    (fromKoopman B p).getLsbD (i + 1) = (decide (i + 1 < B) && p.getLsbD i) := by
  simp only [fromKoopman, BitVec.getLsbD_and, BitVec.getLsbD_or, BitVec.getLsbD_shiftLeft,
    getLsbD_wordOne, getLsbD_ones h64, Nat.add_sub_cancel]
  by_cases hi : i + 1 < B
  · have h64 : i + 1 < 64 := by omega
    simp [hi, h64]
  · simp [hi]

/-- `n` rounds put the mirror of the low `n` bits of `q` below what `a` held. -/
theorem getLsbD_revLoop (n : Nat) (a q : Word) {i : Nat} (hi : i < 64) :
    (revLoop n a q).getLsbD i = if i < n then q.getLsbD (n - 1 - i) else a.getLsbD (i - n) := by
  induction n generalizing a q with
  | zero => rfl
  | succ n ih =>
    rw [revLoop, ih]
    simp only [BitVec.getLsbD_or, BitVec.getLsbD_and, BitVec.getLsbD_shiftLeft,
      BitVec.getLsbD_ushiftRight, getLsbD_wordOne]
    rcases Nat.lt_trichotomy i n with hlt | rfl | hgt
    · have hbit : 1 + (n - 1 - i) = n + 1 - 1 - i := by omega
      rw [if_pos hlt, if_pos (by omega), hbit]
    · simp
    · obtain ⟨k, rfl⟩ := Nat.exists_eq_add_of_lt hgt
      have hk : k + 1 < 64 := by omega
      have hbit : n + k + 1 - n = k + 1 := by omega
      have hrest : n + k + 1 - (n + 1) = k := by omega
      rw [if_neg (by omega), if_neg (by omega), hbit, hrest]
      simp [hk]

theorem getLsbD_rev {B : Nat} (p : Word) (h64 : B ≤ 64) (i : Nat) :
    (rev B p).getLsbD i = (decide (i < B) && p.getLsbD (B - 1 - i)) := by
  by_cases hi : i < 64
  · rw [rev, getLsbD_revLoop B 0 p hi]
    split
    · simp [*]
    · simp [*]
  · have hB : ¬ i < B := by omega
    simp [BitVec.getLsbD_of_ge (rev B p) i (by omega), hB]

theorem or_one_of_getLsbD_zero {p : Word} (h : p.getLsbD 0 = true) : p ||| 1 = p := by
  apply BitVec.eq_of_getLsbD_eq
  intro i _
  rw [BitVec.getLsbD_or, getLsbD_wordOne]
  cases i with
  | zero => rw [h, Bool.true_or]
  | succ j => rw [decide_eq_false (Nat.succ_ne_zero j), Bool.or_false]

/-- Bits 1 to B - 1 move down and back up; bit 0 is lost and set (40_polynomial_forms.md R106). -/
theorem fromKoopman_toKoopman {B : Nat} (p : Word) (h1 : 1 ≤ B) (h64 : B ≤ 64) :
    fromKoopman B (toKoopman B p) = (p ||| 1) &&& ones B := by
  apply BitVec.eq_of_getLsbD_eq
  intro i _
  cases i with
  | zero =>
    simp only [getLsbD_fromKoopman_zero _ h1 h64, BitVec.getLsbD_and, BitVec.getLsbD_or,
      getLsbD_wordOne, getLsbD_ones_zero h1 h64, decide_true, Bool.or_true, Bool.and_true]
  | succ j =>
    simp only [getLsbD_fromKoopman_succ _ h64, getLsbD_toKoopman p h1 h64, BitVec.getLsbD_and,
      BitVec.getLsbD_or, getLsbD_wordOne, getLsbD_ones h64]
    by_cases hj : j + 1 < B
    · simp [hj]
    · simp [hj]

/-! ### The bound (40_polynomial_forms.md R109) -/

theorem toNat_lt_of_high_bits {B : Nat} {v : Word} (h : ∀ i, B ≤ i → v.getLsbD i = false) :
    v.toNat < 2 ^ B :=
  Nat.lt_pow_two_of_testBit _ fun i hi => (BitVec.testBit_toNat v).trans (h i hi)

/-! ### What a command that writes a form does (40_polynomial_forms.md R100) -/

/-- The command checks BITS, then writes `f s` to RESULT. -/
def WritesForm (i : Instr) (f : State → Word) : Prop :=
  ∀ s, exec i s = withBits s (.next (s.setResult (f s)))

theorem selw_writesForm : WritesForm .selw fun s => BitVec.ofNat 64 (selw s.bits.toNat) := fun _ => rfl

theorem ones_writesForm : WritesForm .ones fun s => ones s.bits.toNat := fun _ => rfl

theorem tokoop_writesForm : WritesForm .tokoop fun s => toKoopman s.bits.toNat s.poly := fun _ => rfl

theorem fromkoop_writesForm : WritesForm .fromkoop fun s => fromKoopman s.bits.toNat s.poly :=
  fun _ => rfl

theorem revpoly_writesForm : WritesForm .revpoly fun s => rev s.bits.toNat s.poly := fun _ => rfl

theorem WritesForm.of_legal {i : Instr} {f : State → Word} (h : WritesForm i f) {s : State}
    (hl : s.LegalBits) : exec i s = .next { s with result := f s } :=
  (h s).trans (withBits_of_legal hl _)

theorem WritesForm.of_illegal {i : Instr} {f : State → Word} (h : WritesForm i f) {s : State}
    (hl : ¬ s.LegalBits) : exec i s = .next (s.raised 2) :=
  (h s).trans (withBits_of_illegal hl _)

/-- A command that writes RESULT raises an error or writes RESULT (40_polynomial_forms.md R100;
43_stream.md R166). -/
theorem exec_result_cases {i : Instr} {s t : State}
    (hi : i ∈ [Instr.selw, .ones, .tokoop, .fromkoop, .revpoly, .finish]) (h : exec i s = .next t) :
    (∃ e : CmdError, t = s.raiseCmdError e) ∨ ∃ v, t = s.setResult v := by
  rcases exec_next_cases h with
    ⟨-, rfl⟩ | herr | ⟨v, ht, -⟩ | ⟨_, -, rfl⟩ | ⟨-, rfl⟩ | ⟨_, -, hacc⟩
  · simp at hi
  · exact .inl herr
  · exact .inr ⟨v, ht⟩
  · simp at hi
  · simp at hi
  · have hdisjoint : ∀ j ∈ [Instr.selw, .ones, .tokoop, .fromkoop, .revpoly, .finish],
        j.mnemonic ∉ ["NEXT", "DSTEP", "START", "FEEDT", "FEEDD"] := by decide
    exact absurd hacc (hdisjoint i hi)

theorem keepsTable_of_eq {s t : State} (h : t.table = s.table) : KeepsTable s t :=
  ⟨fun n => congrArg (·.readEntry n) h, fun off => congrArg (·.readByte off) h⟩

end Sys2Proof.Machine
end

section
/-! PROOFS. The obligations of the family 40_polynomial_forms.md. -/

namespace Sys2Proof.Machine

/-- Settles O28: each bucket is one branch of `selw`. -/
theorem selwWritesTheBucket : Obligations.SelwWritesTheBucket := by
  refine ⟨by decide, fun s => ⟨?_, ?_, ?_, ?_, selw_writesForm.of_illegal⟩⟩
  · intro hl h8
    rw [selw_writesForm.of_legal hl, selw, if_pos h8]
    rfl
  · intro hl h9 h16
    rw [selw_writesForm.of_legal hl, selw, if_neg (by omega), if_pos h16]
    rfl
  · intro hl h17 h32
    rw [selw_writesForm.of_legal hl, selw, if_neg (by omega), if_neg (by omega), if_pos h32]
    rfl
  · intro hl h33
    rw [selw_writesForm.of_legal hl, selw, if_neg (by omega), if_neg (by omega), if_neg (by omega)]
    rfl

/-- Settles O29: `2^B - 1` fits in 64 bits for B = 64 too. -/
theorem onesWritesTheMask : Obligations.OnesWritesTheMask := by
  refine ⟨by decide, fun s => ⟨fun hl => ?_, ones_writesForm.of_illegal⟩⟩
  have ⟨_, h64, _⟩ := hl
  exact ⟨_, ones_writesForm.of_legal hl, toNat_ones h64, getLsbD_ones h64⟩

/-- Settles O30: the command computes the formula, whose bits are those of `toKoopman`. -/
theorem tokoopWritesKoopmanForm : Obligations.TokoopWritesKoopmanForm := by
  refine ⟨by decide, fun s => ⟨fun hl => ?_, tokoop_writesForm.of_illegal⟩⟩
  have ⟨h1, h64, _⟩ := hl
  exact ⟨_, tokoop_writesForm.of_legal hl, rfl, getLsbD_toKoopman s.poly h1 h64⟩

/-- Settles O31: the command computes the formula, whose bits are those of `fromKoopman`. -/
theorem fromkoopWritesNormalForm : Obligations.FromkoopWritesNormalForm := by
  refine ⟨by decide, fun s => ⟨fun hl => ?_, fromkoop_writesForm.of_illegal⟩⟩
  have ⟨h1, h64, _⟩ := hl
  refine ⟨_, fromkoop_writesForm.of_legal hl, rfl, getLsbD_fromKoopman_zero s.poly h1 h64, ?_⟩
  intro i hi
  obtain ⟨j, rfl⟩ := Nat.exists_eq_add_one.2 hi
  exact getLsbD_fromKoopman_succ s.poly h64 j

/-- Settles O32: the loop's B rounds leave the mirror of the low B bits. -/
theorem revpolyMirrorsTheWindow : Obligations.RevpolyMirrorsTheWindow := by
  refine ⟨by decide, fun s => ⟨fun hl => ?_, revpoly_writesForm.of_illegal⟩⟩
  have ⟨_, h64, _⟩ := hl
  exact ⟨_, revpoly_writesForm.of_legal hl, getLsbD_rev s.poly h64⟩

/-- Settles O33: the round trip loses bit 0 alone, and sets it. -/
theorem koopmanRoundTrip : Obligations.KoopmanRoundTrip := by
  intro B p h1 h64
  refine ⟨fromKoopman_toKoopman p h1 h64, fun h => ?_, fun h => ?_⟩
  · have hbit := congrArg (·.getLsbD 0) h
    simpa only [getLsbD_fromKoopman_zero _ h1 h64, BitVec.getLsbD_and,
      getLsbD_ones_zero h1 h64, Bool.and_true, eq_comm] using hbit
  · rw [fromKoopman_toKoopman p h1 h64, or_one_of_getLsbD_zero h]

/-- Settles O34: the round trip loses bit B - 1 alone, and sets it. -/
theorem koopmanRoundTripOtherDirection : Obligations.KoopmanRoundTripOtherDirection := by
  intro B k h1 h64
  apply BitVec.eq_of_getLsbD_eq
  intro i _
  simp only [getLsbD_toKoopman _ h1 h64, getLsbD_fromKoopman_succ _ h64, BitVec.getLsbD_or,
    BitVec.getLsbD_and, getLsbD_ones h64, getLsbD_wordOne_shiftLeft (show B - 1 < 64 by omega)]
  by_cases htop : i + 1 = B
  · subst htop
    simp
  · have hne : B - 1 ≠ i := by omega
    have hlt : i < B ↔ i + 1 < B := by omega
    simp [htop, hne, hlt, Bool.and_comm]

/-- Settles O35: `B - 1 - i` mirrors back to `i`. -/
theorem reversalIsInvolution : Obligations.ReversalIsInvolution := by
  intro B p _ h64
  apply BitVec.eq_of_getLsbD_eq
  intro i _
  simp only [getLsbD_rev _ h64, BitVec.getLsbD_and, getLsbD_ones h64]
  by_cases hi : i < B
  · have hmirror : B - 1 - i < B := by omega
    have hback : B - 1 - (B - 1 - i) = i := by omega
    simp [hi, hmirror, hback]
  · simp [hi]

/-- Settles O36: every bit of a form at or above B is 0. -/
theorem polynomialFormResultsAreBounded : Obligations.PolynomialFormResultsAreBounded := by
  refine ⟨fun B p h1 h64 => ⟨?_, ?_, ?_, ?_, ?_, getLsbD_fromKoopman_zero p h1 h64⟩, fun s hl =>
    ⟨⟨_, ?_, selw_writesForm.of_legal hl⟩, ones_writesForm.of_legal hl, tokoop_writesForm.of_legal hl,
      fromkoop_writesForm.of_legal hl, revpoly_writesForm.of_legal hl⟩⟩
  · exact toNat_lt_of_high_bits fun i hi => by simp [getLsbD_ones h64, hi]
  · refine toNat_lt_of_high_bits fun i hi => ?_
    rw [getLsbD_toKoopman p h1 h64, if_neg (by omega), decide_eq_false (by omega)]
  · refine toNat_lt_of_high_bits fun i hi => ?_
    obtain ⟨j, rfl⟩ := Nat.exists_eq_add_one.2 (Nat.lt_of_lt_of_le h1 hi)
    simp [getLsbD_fromKoopman_succ p h64, hi]
  · exact toNat_lt_of_high_bits fun i hi => by simp [getLsbD_rev p h64, hi]
  · rw [getLsbD_toKoopman p h1 h64, if_neg (by omega), decide_eq_true (by omega)]
  · have hmem : selw s.bits.toNat ∈ [8, 16, 32, 64] := by simpa using selw_cases s.bits.toNat
    exact List.mem_map_of_mem (f := BitVec.ofNat 64) hmem

/-- Settles O55: such a command writes RESULT or raises an error. -/
theorem resultCommandsFrame : Obligations.ResultCommandsFrame := by
  intro i s t hi h
  rcases exec_result_cases hi h with ⟨e, rfl⟩ | ⟨v, rfl⟩
  · exact ⟨⟨rfl, rfl, rfl, rfl⟩, keepsTable_of_eq rfl, ⟨rfl, rfl, rfl, rfl⟩, rfl, rfl, .inr ⟨rfl, rfl⟩⟩
  · exact ⟨⟨rfl, rfl, rfl, rfl⟩, keepsTable_of_eq rfl, ⟨rfl, rfl, rfl, rfl⟩, rfl, rfl, .inl ⟨rfl, rfl⟩⟩

end Sys2Proof.Machine
end

section
/-! SUPPORT. The laws the proofs of the family 41_table.md share: what the CRC bit step does to XOR and to the
high bits, what LDDEF does for each width, and what the three table commands can do. -/

namespace Sys2Proof.Machine

/-! ### The bit step (41_table.md R122) -/

theorem crcStep_of_bit {v : Word} (h : v.getLsbD 0 = true) (r : Word) : crcStep v r = (v >>> 1) ^^^ r :=
  if_pos h

theorem crcStep_of_not_bit {v : Word} (h : v.getLsbD 0 = false) (r : Word) : crcStep v r = v >>> 1 :=
  if_neg (Bool.eq_false_iff.mp h)

/-- Each bit of a bit step: the one above it, and that of `r` where bit 0 was 1. -/
theorem getLsbD_crcStep (v r : Word) (i : Nat) :
    (crcStep v r).getLsbD i = (v.getLsbD (i + 1) ^^ (v.getLsbD 0 && r.getLsbD i)) := by
  cases h : v.getLsbD 0 with
  | true =>
    rw [crcStep_of_bit h, BitVec.getLsbD_xor, BitVec.getLsbD_ushiftRight, Nat.add_comm, Bool.true_and]
  | false =>
    rw [crcStep_of_not_bit h, BitVec.getLsbD_ushiftRight, Nat.add_comm, Bool.false_and, Bool.xor_false]

@[simp] theorem crcStep_zero (r : Word) : crcStep 0 r = 0 := crcStep_of_not_bit rfl r

/-- Bit 0 of an XOR is the XOR of the bits 0, so the bit step is linear (41_table.md R125). -/
theorem crcStep_xor (v w r : Word) : crcStep (v ^^^ w) r = crcStep v r ^^^ crcStep w r := by
  apply BitVec.eq_of_getLsbD_eq
  intro i _
  simp only [getLsbD_crcStep, BitVec.getLsbD_xor, Bool.and_xor_distrib_right, Bool.xor_assoc,
    Bool.xor_left_comm]

/-! ### Bit steps in a row (41_table.md R122, R124, R125) -/

theorem crcSteps_eq_iterate (n : Nat) (v r : Word) : crcSteps n v r = (fun u => crcStep u r)^[n] v := by
  induction n generalizing v with
  | zero => rfl
  | succ n ih => rw [crcSteps, ih, Function.iterate_succ_apply]

theorem crcSteps_zero (n : Nat) (r : Word) : crcSteps n 0 r = 0 := by
  induction n with
  | zero => rfl
  | succ n ih => rw [crcSteps, crcStep_zero, ih]

theorem crcSteps_xor (n : Nat) (v w r : Word) :
    crcSteps n (v ^^^ w) r = crcSteps n v r ^^^ crcSteps n w r := by
  induction n generalizing v w with
  | zero => rfl
  | succ n ih => rw [crcSteps, crcSteps, crcSteps, crcStep_xor, ih]

/-- A single bit moves down to bit 0 and then leaves `r` in its place. -/
theorem crcSteps_twoPow {k : Nat} (hk : k < 64) (r : Word) :
    crcSteps (k + 1) (BitVec.twoPow 64 k) r = r := by
  induction k with
  | zero =>
    rw [crcSteps, crcSteps, crcStep_of_bit rfl]
    exact BitVec.zero_xor
  | succ k ih =>
    have hstep : crcStep (BitVec.twoPow 64 (k + 1)) r = BitVec.twoPow 64 k := by
      apply BitVec.eq_of_getLsbD_eq
      intro i _
      have hk' : k < 64 := by omega
      simp [getLsbD_crcStep, BitVec.getLsbD_twoPow, hk, hk']
    rw [crcSteps, hstep, ih (by omega)]

/-- Each bit step lowers the bound of `v` by one, down to that of `r`. -/
theorem crcSteps_high_bits {B n : Nat} {v r : Word} (hv : ∀ i, B + n ≤ i → v.getLsbD i = false)
    (hr : ∀ i, B ≤ i → r.getLsbD i = false) : ∀ i, B ≤ i → (crcSteps n v r).getLsbD i = false := by
  induction n generalizing v with
  | zero => exact hv
  | succ n ih =>
    refine ih fun i hi => ?_
    rw [getLsbD_crcStep, hv (i + 1) (by omega), hr i (by omega), Bool.and_false, Bool.xor_false]

/-! ### The table entry (41_table.md R122, R125) -/

theorem rev_high_bits {B : Nat} (p : Word) (h64 : B ≤ 64) : ∀ i, B ≤ i → (rev B p).getLsbD i = false :=
  fun i hi => by rw [getLsbD_rev p h64, decide_eq_false (Nat.not_lt.mpr hi), Bool.false_and]

/-- The index is below 2^8, so eight bit steps bring it below the bound of the reversed polynomial. -/
theorem toNat_tabEntry_lt {B n : Nat} (p : Word) (h64 : B ≤ 64) (hn : n < 256) :
    (tabEntry B p n).toNat < 2 ^ B := by
  have hindex : ∀ i, B + 8 ≤ i → (BitVec.ofNat 64 n).getLsbD i = false := fun i hi => by
    have hpow : 2 ^ 8 ≤ 2 ^ i := Nat.pow_le_pow_right (by decide) (by omega)
    rw [BitVec.getLsbD_ofNat, Nat.testBit_eq_false_of_lt (by omega), Bool.and_false]
  exact toNat_lt_of_high_bits (crcSteps_high_bits hindex (rev_high_bits p h64))

theorem tabEntry_xor (B : Nat) (p : Word) (m n : Nat) :
    tabEntry B p (m ^^^ n) = tabEntry B p m ^^^ tabEntry B p n := by
  rw [tabEntry, BitVec.ofNat_xor, step8, crcSteps_xor]
  rfl

/-! ### LDDEF and GENTAB by the width (41_table.md R121, R123) -/

theorem defaultPoly_of_other {B : Nat} (h16 : B ≠ 16) (h32 : B ≠ 32) : defaultPoly B = none := by
  rw [defaultPoly, if_neg h16, if_neg h32]

theorem exec_lddef_of_some {s : State} {p : Word} (hl : s.LegalBits)
    (hp : defaultPoly s.bits.toNat = some p) : exec .lddef s = .next (s.setPoly p) := by
  rw [exec, execLddef, withBits_of_legal hl, State.crcWidth, hp]

theorem exec_lddef_of_none {s : State} (hl : s.LegalBits) (hp : defaultPoly s.bits.toNat = none) :
    exec .lddef s = .next (s.raised 4) := by
  rw [exec, execLddef, withBits_of_legal hl, State.crcWidth, hp]
  exact cmdError_eq s .noDef

theorem legalBits_of_ge_two {s : State} (h2 : 2 ≤ s.bits.toNat) (h64 : s.bits.toNat ≤ 64) :
    s.LegalBits :=
  ⟨by omega, h64, fun _ => by omega⟩

theorem exec_gentab_of_legal {s : State} (hl : s.LegalBits) :
    exec .gentab s = .next (s.setTable s.generatedTable) :=
  withBits_of_legal hl _

theorem readEntry_generatedTable (s : State) (n : Nat) : s.generatedTable.readEntry n =
    if n < 256 then some (tabEntry s.bits.toNat s.poly n) else s.table.readEntry n :=
  readEntry_fill s.table _ n

theorem tfull_generatedTable (s : State) : tfull s.generatedTable = true :=
  (tfull_iff _).2 fun n hn => by rw [readEntry_generatedTable, if_pos hn]; rfl

/-- No byte outside the table window is stored (20_memory.md R51). -/
theorem readByte_of_outside {off : Nat} (h : ¬ (0x800 ≤ off ∧ off < 0x1000)) (m : Memory) :
    m.readByte off = none :=
  if_neg h

/-- LDDEF, GENTAB and NOP do nothing, raise an error, or write POLY or the table (41_table.md R120). -/
theorem exec_tableCommand_cases {i : Instr} {s t : State} (hi : i ∈ [Instr.lddef, .gentab, .nop])
    (h : exec i s = .next t) :
    t = s ∨ (∃ e : CmdError, t = s.raiseCmdError e) ∨ (i = .lddef ∧ ∃ v, t = s.setPoly v) ∨
      (i = .gentab ∧ ∃ m, t = s.setTable m) := by
  rcases exec_next_cases h with
    ⟨ht, -⟩ | herr | ⟨_, -, hres⟩ | ⟨v, ht, hlddef⟩ | ⟨ht, hgentab⟩ | ⟨_, -, hacc⟩
  · exact .inl ht
  · exact .inr (.inl herr)
  · have hdisjoint : ∀ j ∈ [Instr.lddef, .gentab, .nop],
        j ∉ [Instr.selw, .ones, .tokoop, .fromkoop, .revpoly, .finish] := by decide
    exact absurd hres (hdisjoint i hi)
  · exact .inr (.inr (.inl ⟨hlddef, v, ht⟩))
  · exact .inr (.inr (.inr ⟨hgentab, _, ht⟩))
  · have hdisjoint : ∀ j ∈ [Instr.lddef, .gentab, .nop],
        j.mnemonic ∉ ["NEXT", "DSTEP", "START", "FEEDT", "FEEDD"] := by decide
    exact absurd hacc (hdisjoint i hi)

end Sys2Proof.Machine
end

section
/-! PROOFS. The obligations of the family 41_table.md. -/

namespace Sys2Proof.Machine

/-- Settles O37: the default of each width is an equation of `defaultPoly`. -/
theorem lddefLoadsTheDefault : Obligations.LddefLoadsTheDefault := by
  refine ⟨by decide, fun s => ⟨fun h16 => ?_, fun h32 => ?_, fun hl h16 h32 => ?_, fun hl => ?_⟩⟩
  · exact exec_lddef_of_some (legalBits_of_ge_two (by omega) (by omega)) (congrArg defaultPoly h16)
  · exact exec_lddef_of_some (legalBits_of_ge_two (by omega) (by omega)) (congrArg defaultPoly h32)
  · exact exec_lddef_of_none hl (defaultPoly_of_other h16 h32)
  · exact withBits_of_illegal hl _

/-- Settles O38: the two cases of the bit step, its iteration, and the bound. -/
theorem tableEntryFunction : Obligations.TableEntryFunction :=
  ⟨fun _ r h => crcStep_of_bit h r, fun _ r h => crcStep_of_not_bit h r, crcSteps_eq_iterate 8,
    fun _ _ _ => rfl, fun _ p _ _ h64 hn => toNat_tabEntry_lt p h64 hn⟩

/-- Settles O39: the new table is the old one filled with the entries of BITS and POLY. -/
theorem gentabWritesTheTable : Obligations.GentabWritesTheTable := by
  refine ⟨by decide, fun s => ⟨fun hl => ?_, fun hl => withBits_of_illegal hl _⟩⟩
  refine ⟨s.generatedTable, exec_gentab_of_legal hl, fun n hn => ?_, fun n hn => ?_,
    tfull_generatedTable s⟩
  · rw [readEntry_generatedTable, if_pos hn]
  · rw [readEntry_generatedTable, if_neg (Nat.not_lt.mpr hn)]

/-- Settles O41: eight linear bit steps are linear, and 0x80 is the single bit 7, which the eighth step
turns into the reversed polynomial. -/
theorem tableIsLinear : Obligations.TableIsLinear := by
  refine ⟨fun B p a b => ?_, fun B p => ?_⟩
  · rw [BitVec.toNat_xor, tabEntry_xor]
  · exact crcSteps_twoPow (show 7 < 64 by decide) (rev B p)

/-- Settles O57: each of the four things the commands can do writes its own fields alone. -/
theorem tableCommandsFrame : Obligations.TableCommandsFrame := by
  intro i s t hi h
  have outside (off : Nat) (hoff : ¬ (0x800 ≤ off ∧ off < 0x1000)) :
      t.table.readByte off = s.table.readByte off := by
    rw [readByte_of_outside hoff, readByte_of_outside hoff]
  rcases exec_tableCommand_cases hi h with rfl | ⟨e, rfl⟩ | ⟨rfl, v, rfl⟩ | ⟨rfl, m, rfl⟩
  · exact ⟨⟨rfl, rfl, rfl, rfl⟩, ⟨rfl, rfl, rfl, rfl⟩, rfl, rfl, fun _ => rfl,
      fun _ => keepsTable_of_eq rfl, outside, .inl ⟨rfl, rfl⟩⟩
  · exact ⟨⟨rfl, rfl, rfl, rfl⟩, ⟨rfl, rfl, rfl, rfl⟩, rfl, rfl, fun _ => rfl,
      fun _ => keepsTable_of_eq rfl, outside, .inr ⟨rfl, rfl, keepsTable_of_eq rfl⟩⟩
  · exact ⟨⟨rfl, rfl, rfl, rfl⟩, ⟨rfl, rfl, rfl, rfl⟩, rfl, rfl, fun hne => absurd rfl hne,
      fun _ => keepsTable_of_eq rfl, outside, .inl ⟨rfl, rfl⟩⟩
  · exact ⟨⟨rfl, rfl, rfl, rfl⟩, ⟨rfl, rfl, rfl, rfl⟩, rfl, rfl, fun _ => rfl,
      fun hne => absurd rfl hne, outside, .inl ⟨rfl, rfl⟩⟩

/-- Settles O40: no bit step finds a 1 in bit 0. -/
theorem tableEntryZeroIsZero : Obligations.TableEntryZeroIsZero := fun B p => crcSteps_zero 8 (rev B p)

end Sys2Proof.Machine
end

section
/-! SUPPORT. The laws the proofs of the family 42_update.md share: the words of NEXT and DSTEP, what the
commands that write ACC do by the width, how eight bit steps split into a table entry and a shift, and the
bound a step keeps. -/

namespace Sys2Proof.Machine

/-! ### The words of form CB (30_encoding.md R82, R85, R89) -/

/-- The operand stands above the code, with no overlap. -/
theorem toNat_encodeCB {op : Word} {b : Nat} (hop : op.toNat < 256) (hb : b < 256) :
    (encodeCB op b).toNat = 256 * b + op.toNat := by
  have hshift : (BitVec.ofNat 64 b <<< 8).toNat = b <<< 8 := by
    rw [BitVec.toNat_shiftLeft, BitVec.toNat_ofNat, Nat.shiftLeft_eq, Nat.shiftLeft_eq]
    omega
  rw [encodeCB, BitVec.toNat_or, hshift, ← Nat.shiftLeft_add_eq_or_of_lt hop, Nat.shiftLeft_eq]
  omega

theorem decodeCB_encodeCB {op : Word} {b : Nat} (hop : op.toNat < 256) (hb : b < 256)
    (mk : Nat → Instr) : decodeCB (encodeCB op b) mk = .ok (mk b) := by
  have himm : (imm8Field (encodeCB op b)).toNat = b := by
    rw [imm8Field, BitVec.extractLsb'_toNat, toNat_encodeCB hop hb, Nat.shiftRight_eq_div_pow]
    omega
  have hnm : nm1Field (encodeCB op b) = 0 := by
    apply BitVec.eq_of_toNat_eq
    rw [nm1Field, BitVec.extractLsb'_toNat, toNat_encodeCB hop hb, Nat.shiftRight_eq_div_pow]
    exact Nat.mod_eq_zero_of_dvd (by omega)
  rw [decodeCB_of_fields mk hnm, himm]

theorem decode_encode_next {b : Nat} (hb : b < 256) : decode (encode (.next b)) = .ok (.next b) := by
  obtain ⟨hres, hop⟩ := Laws.EncodedFields.next b (decide_eq_true hb)
  rw [decode, if_neg (not_not.mpr hres), decodeOp, hop]
  exact decodeCB_encodeCB (by decide) hb .next

theorem decode_encode_dstep {b : Nat} (hb : b < 256) : decode (encode (.dstep b)) = .ok (.dstep b) := by
  obtain ⟨hres, hop⟩ := Laws.EncodedFields.dstep b (decide_eq_true hb)
  rw [decode, if_neg (not_not.mpr hres), decodeOp, hop]
  exact decodeCB_encodeCB (by decide) hb .dstep

/-! ### The commands that write ACC, by the width (42_update.md R142, R143; 43_stream.md R163, R164) -/

/-- `c = ACC[W-1:0]` (10_state.md R27). -/
theorem accValue_eq (s : State) : s.accValue = lowBits (selw s.bits.toNat) s.acc := trunc_eq_lowBits _ _

section ByWidth
variable {s : State}

theorem exec_next_of_legal {b : Nat} (hb : b < 256) (hl : s.LegalBits) : exec (.next b) s =
    s.updateAcc (nextByte s.table s.accWidth s.accValue (BitVec.ofNat 8 b)) := by
  rw [exec_next, withByte_of_lt hb, withBits_of_legal hl]

theorem exec_next_of_illegal {b : Nat} (hb : b < 256) (hl : ¬ s.LegalBits) :
    exec (.next b) s = .next (s.raised 2) := by
  rw [exec_next, withByte_of_lt hb, withBits_of_illegal hl]

theorem exec_dstep_of_legal {b : Nat} (hb : b < 256) (hl : s.LegalBits) : exec (.dstep b) s =
    s.updateAcc (.ok (dstepByte s.crcWidth s.poly s.accWidth s.accValue (BitVec.ofNat 8 b))) := by
  rw [exec_dstep, withByte_of_lt hb, withBits_of_legal hl]

theorem exec_dstep_of_illegal {b : Nat} (hb : b < 256) (hl : ¬ s.LegalBits) :
    exec (.dstep b) s = .next (s.raised 2) := by
  rw [exec_dstep, withByte_of_lt hb, withBits_of_illegal hl]

theorem exec_feedt_of_legal {k : Nat} (h1 : 1 ≤ k) (h8 : k ≤ 8) (hl : s.LegalBits) :
    exec (.feedt k) s =
      s.updateAcc (foldTable s.table s.accWidth s.accValue (dataBytes s.data k)) := by
  rw [exec_feedt, withCount_of_le h1 h8, withBits_of_legal hl]

theorem exec_feedd_of_legal {k : Nat} (h1 : 1 ≤ k) (h8 : k ≤ 8) (hl : s.LegalBits) :
    exec (.feedd k) s = s.updateAcc
      (.ok (foldDirect s.crcWidth s.poly s.accWidth s.accValue (dataBytes s.data k))) := by
  rw [exec_feedd, withCount_of_le h1 h8, withBits_of_legal hl]

end ByWidth

/-- ACC ends as the value computed or, at an error, as it was. -/
theorem acc_of_updateAcc {s t : State} {r : Except CmdError Word} (h : s.updateAcc r = .next t) :
    r = .ok t.acc ∨ t.acc = s.acc := by
  cases r with
  | ok c =>
    cases h
    exact .inl rfl
  | error e =>
    cases h
    exact .inr rfl

/-- A command that writes ACC raises an error or writes ACC (42_update.md R140; 43_stream.md R161, R163,
R164). -/
theorem exec_acc_cases {i : Instr} {s t : State}
    (hi : i.mnemonic ∈ ["NEXT", "DSTEP", "START", "FEEDT", "FEEDD"]) (h : exec i s = .next t) :
    (∃ e : CmdError, t = s.raiseCmdError e) ∨ ∃ v, t = s.setAcc v := by
  rcases exec_next_cases h with
    ⟨-, rfl⟩ | herr | ⟨_, -, hres⟩ | ⟨_, -, rfl⟩ | ⟨-, rfl⟩ | ⟨v, ht, -⟩
  · exact absurd hi (by decide)
  · exact .inl herr
  · have hdisjoint : ∀ j ∈ [Instr.selw, .ones, .tokoop, .fromkoop, .revpoly, .finish],
        j.mnemonic ∉ ["NEXT", "DSTEP", "START", "FEEDT", "FEEDD"] := by decide
    exact absurd hi (hdisjoint i hres)
  · exact absurd hi (by decide)
  · exact absurd hi (by decide)
  · exact .inr ⟨v, ht⟩

/-! ### Truncation and bounds -/

theorem high_bits_of_toNat_lt {B : Nat} {v : Word} (h : v.toNat < 2 ^ B) :
    ∀ i, B ≤ i → v.getLsbD i = false := fun i hi => by
  rw [← BitVec.testBit_toNat]
  exact Nat.testBit_lt_two_pow (h.trans_le (Nat.pow_le_pow_right (by decide) hi))

theorem getLsbD_lowBits (k : Nat) (v : Word) (i : Nat) :
    (lowBits k v).getLsbD i = (decide (i < k) && v.getLsbD i) := by
  rw [← trunc_eq_lowBits, getLsbD_trunc]

theorem toNat_lowBits (k : Nat) (v : Word) : (lowBits k v).toNat = v.toNat % 2 ^ k := by
  rw [lowBits, BitVec.toNat_ofNat]
  exact Nat.mod_eq_of_lt ((Nat.mod_le _ _).trans_lt v.isLt)

theorem toNat_lowBits_lt (k : Nat) (v : Word) : (lowBits k v).toNat < 2 ^ k := by
  rw [toNat_lowBits]
  exact Nat.mod_lt _ (Nat.two_pow_pos k)

theorem lowBits_eq_self {k : Nat} {v : Word} (h : v.toNat < 2 ^ k) : lowBits k v = v := by
  rw [lowBits, Nat.mod_eq_of_lt h, BitVec.ofNat_toNat, BitVec.setWidth_eq]

theorem toNat_trunc_lt {B : Nat} {v : Word} (h : v.toNat < 2 ^ B) (W : Nat) :
    (trunc W v).toNat < 2 ^ B := by
  rw [trunc_eq_lowBits, toNat_lowBits]
  exact (Nat.mod_le _ _).trans_lt h

/-- An accumulator below `2^B` is below `2^W`, so the read of it loses nothing. -/
theorem accValue_eq_acc {s : State} (hl : s.LegalBits) (hacc : s.acc.toNat < 2 ^ s.bits.toNat) :
    s.accValue = s.acc := by
  obtain ⟨-, h64, -⟩ := hl
  rw [accValue_eq]
  exact lowBits_eq_self (hacc.trans_le (Nat.pow_le_pow_right (by decide) (le_selw h64)))

/-! ### Eight bit steps are a table entry and a shift (42_update.md R144) -/

/-- With no 1 among the low `n` bits, no step XORs: the steps shift. -/
theorem crcSteps_of_low_bits {n : Nat} {v : Word} (h : ∀ i < n, v.getLsbD i = false) (r : Word) :
    crcSteps n v r = v >>> n := by
  induction n generalizing v with
  | zero => exact (BitVec.ushiftRight_zero v).symm
  | succ n ih =>
    have hrest : ∀ i < n, (v >>> 1).getLsbD i = false := fun i hi => by
      rw [BitVec.getLsbD_ushiftRight]
      exact h (1 + i) (by omega)
    rw [crcSteps, crcStep_of_not_bit (h 0 (by omega)), ih hrest, Nat.add_comm,
      BitVec.shiftRight_add]

/-- By linearity the low `n` bits step on their own, and the rest is shifted. -/
theorem crcSteps_eq_low_xor_shift (n : Nat) (v r : Word) :
    crcSteps n v r = crcSteps n (lowBits n v) r ^^^ (v >>> n) := by
  have hsplit : v = lowBits n v ^^^ (v ^^^ lowBits n v) := by
    rw [BitVec.xor_comm v, ← BitVec.xor_assoc, BitVec.xor_self, BitVec.zero_xor]
  have hlow : ∀ i < n, (v ^^^ lowBits n v).getLsbD i = false := fun i hi => by
    rw [BitVec.getLsbD_xor, getLsbD_lowBits, decide_eq_true hi, Bool.true_and, Bool.xor_self]
  have hshift : (v ^^^ lowBits n v) >>> n = v >>> n := by
    apply BitVec.eq_of_getLsbD_eq
    intro i _
    simp [getLsbD_lowBits]
  calc crcSteps n v r
      = crcSteps n (lowBits n v) r ^^^ crcSteps n (v ^^^ lowBits n v) r := by
        rw [← crcSteps_xor, ← hsplit]
    _ = crcSteps n (lowBits n v) r ^^^ (v >>> n) := by rw [crcSteps_of_low_bits hlow, hshift]

/-- The byte is shifted out of `c XOR b`. -/
theorem xor_byte_shiftRight (c : Word) (b : Byte) : (c ^^^ b.setWidth 64) >>> 8 = c >>> 8 := by
  apply BitVec.eq_of_getLsbD_eq
  intro i _
  have hbyte : b.getLsbD (8 + i) = false := BitVec.getLsbD_of_ge b _ (by omega)
  rw [BitVec.getLsbD_ushiftRight, BitVec.getLsbD_ushiftRight, BitVec.getLsbD_xor, BitVec.getLsbD_setWidth,
    hbyte, Bool.and_false, Bool.xor_false]

theorem step8_eq_tabEntry_xor_shift (B : Nat) (p c : Word) (b : Byte) :
    step8 (c ^^^ b.setWidth 64) (rev B p) = tabEntry B p (entryIndex c b) ^^^ (c >>> 8) := by
  rw [step8, crcSteps_eq_low_xor_shift, xor_byte_shiftRight]
  rfl

/-- Where the entry read is the generated one, the table step is the direct step. -/
theorem nextByte_of_generated {m : Memory} {B W : Nat} {p c : Word} {b : Byte}
    (h : m.readEntry (entryIndex c b) = some (tabEntry B p (entryIndex c b))) :
    nextByte m W c b = .ok (dstepByte B p W c b) := by
  rw [nextByte_of_some h, dstepByte, step8_eq_tabEntry_xor_shift, trunc_eq_lowBits]

/-! ### The bound a step keeps (42_update.md R143, R145) -/

/-- Eight bit steps bring a value below `2^(k+8)` below `2^k`, if the reversed polynomial is. -/
theorem toNat_step8_lt {k : Nat} {v r : Word} (hv : v.toNat < 2 ^ (k + 8)) (hr : r.toNat < 2 ^ k) :
    (step8 v r).toNat < 2 ^ k :=
  toNat_lt_of_high_bits (crcSteps_high_bits (high_bits_of_toNat_lt hv) (high_bits_of_toNat_lt hr))

theorem toNat_step8_xor_byte_lt {B k : Nat} {c : Word} (b : Byte) (p : Word) (h64 : B ≤ 64) (hB : B ≤ k)
    (hc : c.toNat < 2 ^ k) : (step8 (c ^^^ b.setWidth 64) (rev B p)).toNat < 2 ^ k := by
  have hbyte : (b.setWidth 64).toNat < 2 ^ (k + 8) := by
    rw [BitVec.toNat_setWidth]
    exact (Nat.mod_le _ _).trans_lt
      (b.isLt.trans_le (Nat.pow_le_pow_right (by decide) (Nat.le_add_left 8 k)))
  have hxor : (c ^^^ b.setWidth 64).toNat < 2 ^ (k + 8) := by
    rw [BitVec.toNat_xor]
    exact Nat.xor_lt_two_pow (hc.trans_le (Nat.pow_le_pow_right (by decide) (Nat.le_add_right k 8))) hbyte
  have hrev : (rev B p).toNat < 2 ^ k :=
    toNat_lt_of_high_bits fun i hi => rev_high_bits p h64 i (hB.trans hi)
  exact toNat_step8_lt hxor hrev

section Bound
variable {B W : Nat} {c : Word}

theorem toNat_dstepByte_lt (p : Word) (h64 : B ≤ 64) (hc : c.toNat < 2 ^ B) (b : Byte) :
    (dstepByte B p W c b).toNat < 2 ^ B :=
  toNat_trunc_lt (toNat_step8_xor_byte_lt b p h64 le_rfl hc) W

theorem toNat_foldDirect_lt (p : Word) (h64 : B ≤ 64) (hc : c.toNat < 2 ^ B) (l : List Byte) :
    (foldDirect B p W c l).toNat < 2 ^ B := by
  induction l generalizing c with
  | nil => exact hc
  | cons b l ih => exact ih (toNat_dstepByte_lt p h64 hc b)

theorem toNat_nextByte_lt {m : Memory} {b : Byte} {d : Word}
    (hm : ∀ e, m.readEntry (entryIndex c b) = some e → e.toNat < 2 ^ B) (hc : c.toNat < 2 ^ B)
    (h : nextByte m W c b = .ok d) : d.toNat < 2 ^ B := by
  cases he : m.readEntry (entryIndex c b) with
  | none => cases (nextByte_of_none he).symm.trans h
  | some e =>
    cases (nextByte_of_some he).symm.trans h
    have hshift : (c >>> 8).toNat < 2 ^ B := by
      rw [BitVec.toNat_ushiftRight]
      exact (Nat.shiftRight_le _ _).trans_lt hc
    rw [← trunc_eq_lowBits]
    refine toNat_trunc_lt ?_ W
    rw [BitVec.toNat_xor]
    exact Nat.xor_lt_two_pow (hm e he) hshift

theorem toNat_foldTable_lt {m : Memory} (hm : ∀ n e, m.readEntry n = some e → e.toNat < 2 ^ B)
    {l : List Byte} (hc : c.toNat < 2 ^ B) {d : Word} (h : foldTable m W c l = .ok d) :
    d.toNat < 2 ^ B := by
  induction l generalizing c with
  | nil =>
    cases h
    exact hc
  | cons b l ih =>
    rw [foldTable] at h
    split at h
    · cases h
    · rename_i c' hc'
      exact ih (toNat_nextByte_lt (hm _) hc hc') h

end Bound

/-- A value computed below the bound keeps ACC below it, and so does an error. -/
theorem toNat_acc_lt_of_updateAcc {s t : State} {B : Nat} {r : Except CmdError Word}
    (h : s.updateAcc r = .next t) (hacc : s.acc.toNat < 2 ^ B)
    (hr : ∀ d, r = .ok d → d.toNat < 2 ^ B) : t.acc.toNat < 2 ^ B := by
  rcases acc_of_updateAcc h with hok | hkeep
  · exact hr _ hok
  · rwa [hkeep]

end Sys2Proof.Machine
end

section
/-! PROOFS. The obligations of the family 42_update.md. -/

namespace Sys2Proof.Machine

/-- Settles O42: the entry read decides between the step and TABUNINIT. -/
theorem nextUpdatesAccumulator : Obligations.NextUpdatesAccumulator := by
  refine fun s b hb => ⟨decode_encode_next hb, fun e hl he => ?_, fun hl he => ?_,
    exec_next_of_illegal hb⟩
  · rw [exec_next_of_legal hb hl, accValue_eq, nextByte_of_some he]
    rfl
  · rw [exec_next_of_legal hb hl, accValue_eq, nextByte_of_none he]
    exact cmdError_eq s .tabUninit

/-- Settles O43: `c`, the byte and the reversed polynomial are below `2^W`, so eight bit steps stay there. -/
theorem dstepUpdatesAccumulator : Obligations.DstepUpdatesAccumulator := by
  intro s b hb W c v
  have hbyte : (BitVec.ofNat 8 b).setWidth 64 = BitVec.ofNat 64 b :=
    BitVec.setWidth_ofNat_of_le_of_lt (by decide) hb
  refine ⟨decode_encode_dstep hb, fun hl => ⟨?_, ?_⟩, exec_dstep_of_illegal hb⟩
  · rw [exec_dstep_of_legal hb hl, accValue_eq, dstepByte, hbyte, trunc_eq_lowBits]
    rfl
  · have ⟨_, h64, _⟩ := hl
    have hv := toNat_step8_xor_byte_lt (BitVec.ofNat 8 b) s.poly h64 (le_selw h64)
      (toNat_lowBits_lt W s.acc)
    rw [hbyte] at hv
    exact lowBits_eq_self hv

/-- Settles O44: eight bit steps of `c XOR b` are the entry of its low byte, XOR `c >> 8`. -/
theorem tableAndDirectStepAgree : Obligations.TableAndDirectStepAgree := by
  intro s b hb hl he
  rw [exec_next_of_legal hb hl, exec_dstep_of_legal hb hl, accValue_eq]
  exact congrArg s.updateAcc (nextByte_of_generated he)

/-- Settles O45: each step keeps the bound, a fold step by step, and an error keeps ACC. -/
theorem updateStaysBelowWidth : Obligations.UpdateStaysBelowWidth := by
  intro s t hl hacc
  have ⟨_, h64, _⟩ := hl
  have hval := accValue_eq_acc hl hacc
  refine ⟨fun b hb h => ?_, fun b hb hm h => ?_, fun k h1 h8 h => ?_, fun k h1 h8 hm h => ?_⟩
  · rw [exec_dstep_of_legal hb hl, hval] at h
    refine toNat_acc_lt_of_updateAcc h hacc ?_
    rintro _ ⟨⟩
    exact toNat_dstepByte_lt s.poly h64 hacc _
  · rw [exec_next_of_legal hb hl, hval] at h
    exact toNat_acc_lt_of_updateAcc h hacc fun d => toNat_nextByte_lt hm hacc
  · rw [exec_feedd_of_legal h1 h8 hl, hval] at h
    refine toNat_acc_lt_of_updateAcc h hacc ?_
    rintro _ ⟨⟩
    exact toNat_foldDirect_lt s.poly h64 hacc _
  · rw [exec_feedt_of_legal h1 h8 hl, hval] at h
    exact toNat_acc_lt_of_updateAcc h hacc fun d => toNat_foldTable_lt hm hacc

/-- Settles O56: such a command writes ACC or raises an error. -/
theorem accumulatorCommandsFrame : Obligations.AccumulatorCommandsFrame := by
  intro i s t hi h
  rcases exec_acc_cases hi h with ⟨e, rfl⟩ | ⟨v, rfl⟩
  · exact ⟨⟨rfl, rfl, rfl, rfl⟩, keepsTable_of_eq rfl, ⟨rfl, rfl, rfl, rfl⟩, rfl, rfl, .inr ⟨rfl, rfl⟩⟩
  · exact ⟨⟨rfl, rfl, rfl, rfl⟩, keepsTable_of_eq rfl, ⟨rfl, rfl, rfl, rfl⟩, rfl, rfl, .inl ⟨rfl, rfl⟩⟩

end Sys2Proof.Machine
end

section
/-! SUPPORT. The laws the proofs of the family 43_stream.md share: the words of FEEDT and FEEDD, what the
folds give by the accumulator before each byte, what the commands of the stream do by the width, how FINISH
narrows, and the two folds over a generated table. -/

namespace Sys2Proof.Machine

/-! ### The words of form CN (30_encoding.md R83, R89) -/

theorem decode_encode_feedt : ∀ k ≤ 8, 1 ≤ k → decode (encode (.feedt k)) = .ok (.feedt k) := by
  decide

theorem decode_encode_feedd : ∀ k ≤ 8, 1 ≤ k → decode (encode (.feedd k)) = .ok (.feedd k) := by
  decide

/-! ### The folds, byte by byte (43_stream.md R162 to R165) -/

/-- A value of `k` bits is its own truncation. -/
theorem lowBits_lowBits (k : Nat) (v : Word) : lowBits k (lowBits k v) = lowBits k v :=
  lowBits_eq_self (toNat_lowBits_lt k v)

theorem dataBytes_succ (v : Word) (n : Nat) : dataBytes v (n + 1) = dataBytes v n ++ [byteAt v n] := by
  rw [dataBytes, List.range_succ, List.map_append]
  rfl

theorem foldTable_singleton (m : Memory) (W : Nat) (c : Word) (b : Byte) :
    foldTable m W c [b] = nextByte m W c b := by
  rw [foldTable]
  cases nextByte m W c b with
  | ok d => rfl
  | error e => rfl

/-- `c i` is the accumulator before byte `i` of DATA, for the table steps of the first `n` bytes, whose
entries are all valid. -/
def TableSteps (m : Memory) (W : Nat) (v : Word) (c : Nat → Word) (n : Nat) : Prop :=
  ∀ i < n, ∃ e, m.readEntry (entryIndex (c i) (byteAt v i)) = some e ∧
    c (i + 1) = lowBits W (e ^^^ (c i >>> 8))

section Folds
variable {m : Memory} {B W : Nat} {p v : Word} {c : Nat → Word} {n : Nat}

theorem TableSteps.mono (h : TableSteps m W v c n) {j : Nat} (hj : j ≤ n) : TableSteps m W v c j :=
  fun i hi => h i (hi.trans_le hj)

theorem TableSteps.foldTable_eq (h : TableSteps m W v c n) :
    foldTable m W (c 0) (dataBytes v n) = .ok (c n) := by
  induction n with
  | zero => rfl
  | succ n ih =>
    obtain ⟨e, he, hc⟩ := h n n.lt_succ_self
    rw [dataBytes_succ, foldTable_append (ih (h.mono n.le_succ)), foldTable_singleton,
      nextByte_of_some he, hc]

/-- The first invalid entry ends the fold, whatever follows (43_stream.md R165). -/
theorem TableSteps.foldTable_of_none {j : Nat} (h : TableSteps m W v c j) (hj : j < n)
    (hnone : m.readEntry (entryIndex (c j) (byteAt v j)) = none) :
    foldTable m W (c 0) (dataBytes v n) = .error .tabUninit := by
  obtain ⟨r, rfl⟩ := Nat.exists_eq_add_of_le hj
  rw [dataBytes_add, dataBytes_succ, List.append_assoc, foldTable_append h.foldTable_eq,
    List.singleton_append, foldTable, nextByte_of_none hnone]

/-- Each step leaves a value of `W` bits. -/
theorem TableSteps.lowBits_eq (h : TableSteps m W v c n) (h0 : lowBits W (c 0) = c 0) {i : Nat}
    (hi : i ≤ n) : lowBits W (c i) = c i := by
  cases i with
  | zero => exact h0
  | succ i =>
    obtain ⟨e, -, hc⟩ := h i hi
    rw [hc, lowBits_lowBits]

theorem foldDirect_of_steps
    (h : ∀ i < n, c (i + 1) = lowBits W (step8 (c i ^^^ (byteAt v i).setWidth 64) (rev B p))) :
    foldDirect B p W (c 0) (dataBytes v n) = c n := by
  induction n with
  | zero => rfl
  | succ n ih =>
    rw [dataBytes_succ, foldDirect_append, ih fun i hi => h i (hi.trans n.lt_succ_self),
      h n n.lt_succ_self, ← trunc_eq_lowBits]
    rfl

/-- A direct fold from a value of `W` bits gives a value of `W` bits. -/
theorem trunc_foldDirect {c : Word} (hc : trunc W c = c) (l : List Byte) :
    trunc W (foldDirect B p W c l) = foldDirect B p W c l := by
  induction l generalizing c with
  | nil => exact hc
  | cons b l ih => exact ih (trunc_trunc W _)

/-- Over a generated table every step of the two folds is the same (42_update.md R144). -/
theorem foldTable_of_generated (hm : ∀ i < 256, m.readEntry i = some (tabEntry B p i)) (c : Word)
    (l : List Byte) : foldTable m W c l = .ok (foldDirect B p W c l) := by
  induction l generalizing c with
  | nil => rfl
  | cons b l ih =>
    have hread := hm (entryIndex c b) (Nat.mod_lt _ (by decide))
    rw [foldTable, nextByte_of_generated hread]
    exact ih _

end Folds

/-! ### The commands of the stream, by the width (43_stream.md R161, R163, R164, R166) -/

section ByWidth
variable {s : State} {k : Nat}

theorem exec_start_of_legal (hl : s.LegalBits) :
    exec .start s = .next (s.setAcc (lowBits (selw s.bits.toNat) s.init)) := by
  rw [exec_start, withBits_of_legal hl, trunc_eq_lowBits]
  rfl

theorem exec_feedt_of_illegal (h1 : 1 ≤ k) (h8 : k ≤ 8) (hl : ¬ s.LegalBits) :
    exec (.feedt k) s = .next (s.raised 2) := by
  rw [exec_feedt, withCount_of_le h1 h8, withBits_of_illegal hl]

theorem exec_feedd_of_illegal (h1 : 1 ≤ k) (h8 : k ≤ 8) (hl : ¬ s.LegalBits) :
    exec (.feedd k) s = .next (s.raised 2) := by
  rw [exec_feedd, withCount_of_le h1 h8, withBits_of_illegal hl]

theorem exec_feedt_of_fold (h1 : 1 ≤ k) (h8 : k ≤ 8) (hl : s.LegalBits) {c : Word}
    (h : foldTable s.table (selw s.bits.toNat) s.accValue (dataBytes s.data k) = .ok c) :
    exec (.feedt k) s = .next (s.setAcc c) :=
  (exec_feedt_of_legal h1 h8 hl).trans (congrArg s.updateAcc h)

theorem exec_finish_of_some (hl : s.LegalBits) {R : Nat}
    (h : resultWidth s.resw (selw s.bits.toNat) = some R) :
    exec .finish s = .next (s.setResult (lowBits R s.accValue)) := by
  rw [exec, execFinish, withBits_of_legal hl, State.accWidth, State.crcWidth, h, ← trunc_eq_lowBits]

theorem exec_finish_of_none (hl : s.LegalBits) (h : resultWidth s.resw (selw s.bits.toNat) = none) :
    exec .finish s = .next (s.raised 3) := by
  rw [exec, execFinish, withBits_of_legal hl, State.accWidth, State.crcWidth, h]
  exact cmdError_eq s .badResw

end ByWidth

/-- The widths the codes 0 to 4 select (10_state.md R24). -/
theorem resultWidth_of_mem {W R : Nat} {r : BitVec 3}
    (h : (R, r) ∈ [(W, (0 : BitVec 3)), (8, 1), (16, 2), (32, 3), (64, 4)]) :
    resultWidth r W = some R := by
  simp only [List.mem_cons, List.not_mem_nil, or_false, Prod.mk.injEq] at h
  rcases h with ⟨rfl, rfl⟩ | ⟨rfl, rfl⟩ | ⟨rfl, rfl⟩ | ⟨rfl, rfl⟩ | ⟨rfl, rfl⟩ <;> rfl

/-- The codes 5 to 7 are reserved (10_state.md R24). -/
theorem resultWidth_of_reserved {r : BitVec 3} (h : 5 ≤ r.toNat) (W : Nat) : resultWidth r W = none := by
  unfold resultWidth
  split
  case h_6 => rfl
  all_goals exact absurd h (by decide)

/-! ### RESW is no operand of a command but FINISH (43_stream.md R167) -/

/-- The second run starts with RESW = `r` and ends with it: no command writes RESW, so there is no word that
either run could have written for `GoesOnAlike` to compare. -/
abbrev ReswAlike (s : State) (r : BitVec 3) : Result → Result → Prop :=
  GoesOnAlike (fun _ t => { t with resw := r }) (fun _ => 0) s 0

theorem reswAlike_updateAcc (s : State) (r : BitVec 3) (a : Except CmdError Word) :
    ReswAlike s r (s.updateAcc a) (State.updateAcc { s with resw := r } a) := by
  cases a with
  | ok c => exact .kept rfl rfl
  | error e => exact .kept rfl rfl

theorem reswAlike_exec {i : Instr} (hi : i ≠ .finish) (s : State) (r : BitVec 3) :
    ReswAlike s r (exec i s) (exec i { s with resw := r }) := by
  have bits {k k' : Result} (hk : ReswAlike s r k k') :
      ReswAlike s r (withBits s k) (withBits { s with resw := r } k') := .withBits rfl (.kept rfl rfl) hk
  cases i with
  | nop => exact .kept rfl rfl
  | selw | ones | tokoop | fromkoop | revpoly | gentab => exact bits (.kept rfl rfl)
  | lddef =>
    refine bits ?_
    rw [show State.crcWidth { s with resw := r } = s.crcWidth from rfl]
    cases defaultPoly s.crcWidth with
    | none => exact .kept rfl rfl
    | some p => exact .kept rfl rfl
  | start => exact bits (reswAlike_updateAcc s r (.ok _))
  | next b => exact .withByte fun byte => bits (reswAlike_updateAcc s r _)
  | dstep b => exact .withByte fun byte => bits (reswAlike_updateAcc s r (.ok _))
  | feedt k => exact .withCount (bits (reswAlike_updateAcc s r _))
  | feedd k => exact .withCount (bits (reswAlike_updateAcc s r (.ok _)))
  | finish => exact absurd rfl hi

/-! ### The two folds over a generated table (43_stream.md R160, R168) -/

/-- The table is the one GENTAB generates from the BITS and POLY the state holds. -/
def State.HasGeneratedTable (s : State) : Prop :=
  ∀ n < 256, s.table.readEntry n = some (tabEntry s.bits.toNat s.poly n)

theorem hasGeneratedTable_of_gentab {s t u : State} (hl : s.LegalBits) (h : exec .gentab s = .next t)
    (htable : u.table = t.table) (hbits : u.bits = s.bits) (hpoly : u.poly = s.poly) :
    u.HasGeneratedTable := by
  cases (exec_gentab_of_legal hl).symm.trans h
  intro n hn
  rw [htable, hbits, hpoly, setTable_table, readEntry_generatedTable, if_pos hn]

theorem exec_feedt_eq_feedd {s : State} (h : s.HasGeneratedTable) (k : Nat) :
    exec (.feedt k) s = exec (.feedd k) s := by
  rw [exec_feedt, exec_feedd, foldTable_of_generated h]
  rfl

/-- A command that writes ACC keeps the table, BITS and POLY (42_update.md R140; 43_stream.md R161, R164). -/
theorem State.HasGeneratedTable.of_accCommand {i : Instr} {s t : State} (hs : s.HasGeneratedTable)
    (hi : i.mnemonic ∈ ["NEXT", "DSTEP", "START", "FEEDT", "FEEDD"]) (h : exec i s = .next t) :
    t.HasGeneratedTable := by
  rcases exec_acc_cases hi h with ⟨e, rfl⟩ | ⟨v, rfl⟩
  · exact hs
  · exact hs

section Feeds
variable {feed : Nat → Instr} {feeds : List (Word × Nat)} {s t u v : State}

theorem feedAll_cons {d : Word} {k : Nat} (h : exec (feed k) (s.setData d) = .next t) :
    s.feedAll feed ((d, k) :: feeds) = t.feedAll feed feeds := by
  rw [State.setData] at h
  rw [State.feedAll, h]
  rfl

theorem wholeFold_of_parts (hstart : exec .start s = .next t) (hfeeds : t.feedAll feed feeds = some u)
    (hfinish : exec .finish u = .next v) : s.wholeFold feed feeds = some v := by
  simp only [State.wholeFold, hstart, hfeeds, hfinish, nextState?, Option.bind_some]

end Feeds

/-- Feeds with an encoding complete, and over a generated table both kinds leave the same state. -/
theorem feedAll_agree {feeds : List (Word × Nat)} (hk : ∀ f ∈ feeds, 1 ≤ f.2 ∧ f.2 ≤ 8) {s : State}
    (hs : s.HasGeneratedTable) :
    ∃ t, s.feedAll .feedt feeds = some t ∧ s.feedAll .feedd feeds = some t := by
  induction feeds generalizing s with
  | nil => exact ⟨s, rfl, rfl⟩
  | cons f rest ih =>
    obtain ⟨d, k⟩ := f
    obtain ⟨⟨h1, h8⟩, hrest⟩ := List.forall_mem_cons.mp hk
    have hd : (s.setData d).HasGeneratedTable := hs
    have hwf : (Instr.feedd k).wellFormed = true := by simp [Instr.wellFormed, countOk, h1, h8]
    obtain ⟨t, hfeedd⟩ := completes_exec hwf (s.setData d)
    have hfeedt := (exec_feedt_eq_feedd hd k).trans hfeedd
    obtain ⟨u, hut, hud⟩ := ih hrest (hd.of_accCommand (by simp [Instr.mnemonic]) hfeedd)
    exact ⟨u, (feedAll_cons hfeedt).trans hut, (feedAll_cons hfeedd).trans hud⟩

end Sys2Proof.Machine
end

section
/-! PROOFS. The obligations of the family 43_stream.md. -/

namespace Sys2Proof.Machine

/-- Settles O47: the accumulators before each byte are those of the fold, up to the first invalid entry. -/
theorem feedtFoldsTheBytes : Obligations.FeedtFoldsTheBytes := by
  intro s k c h1 h8 W stepsBefore
  refine ⟨decode_encode_feedt k h8 h1, ?_, ?_, exec_feedt_of_illegal h1 h8⟩
  · rintro hl ⟨h0, hsteps⟩
    refine exec_feedt_of_fold h1 h8 hl ?_
    rw [accValue_eq, ← h0]
    exact TableSteps.foldTable_eq hsteps
  · rintro j hj hl ⟨h0, hsteps⟩ hnone
    have hfold : foldTable s.table W (c 0) (dataBytes s.data k) = .error .tabUninit :=
      TableSteps.foldTable_of_none hsteps hj hnone
    rw [h0, ← accValue_eq] at hfold
    rw [exec_feedt_of_legal h1 h8 hl]
    exact (congrArg s.updateAcc hfold).trans (cmdError_eq s .tabUninit)

/-- Settles O48: the accumulators before each byte are those of the fold. -/
theorem feeddFoldsTheBytes : Obligations.FeeddFoldsTheBytes := by
  intro s k c h1 h8 W
  refine ⟨decode_encode_feedd k h8 h1, fun hl h0 hsteps => ?_, exec_feedd_of_illegal h1 h8⟩
  have hfold : foldDirect s.bits.toNat s.poly W (c 0) (dataBytes s.data k) = c k :=
    foldDirect_of_steps hsteps
  rw [h0, ← accValue_eq] at hfold
  rw [exec_feedd_of_legal h1 h8 hl]
  exact congrArg (fun v => s.updateAcc (.ok v)) hfold

/-- Settles O49: the fold over one byte is its step. -/
theorem feedOfOneByteIsOneStep : Obligations.FeedOfOneByteIsOneStep := by
  intro s
  have hbyte : BitVec.ofNat 8 (s.dataByte 0).toNat = s.dataByte 0 := by
    rw [BitVec.ofNat_toNat, BitVec.setWidth_eq]
  have hlt : (s.dataByte 0).toNat < 256 := (s.dataByte 0).isLt
  constructor
  · rw [exec_feedt, exec_next, withCount_of_le (by decide) (by decide), withByte_of_lt hlt, hbyte,
      ← foldTable_singleton]
    rfl
  · rw [exec_feedd, exec_dstep, withCount_of_le (by decide) (by decide), withByte_of_lt hlt, hbyte]
    rfl

/-- Settles O50: the fold over `j + k` bytes is the fold over the next `k` from what the first `j` leave, and
reading ACC loses nothing of that. -/
theorem feedSplits : Obligations.FeedSplits := by
  intro s j k hj hk hjk hl
  have hj8 : j ≤ 8 := by omega
  have hk8 : k ≤ 8 := by omega
  have h1 : 1 ≤ j + k := by omega
  constructor
  · refine ⟨_, _, _, exec_feedd_of_legal hj hj8 hl, exec_feedd_of_legal hk hk8 hl,
      exec_feedd_of_legal h1 hjk hl, ?_⟩
    rw [dataBytes_add, foldDirect_append]
    exact congrArg (foldDirect s.crcWidth s.poly s.accWidth · (dataBytes (s.data >>> (8 * j)) k))
      (trunc_foldDirect (trunc_trunc _ _) _)
  · intro c h0 hsteps
    have hsteps : TableSteps s.table (selw s.bits.toNat) s.data c (j + k) := hsteps
    have hfirst := (hsteps.mono (Nat.le_add_right j k)).foldTable_eq
    have hwhole := hsteps.foldTable_eq
    have hsecond := hwhole
    rw [dataBytes_add, foldTable_append hfirst] at hsecond
    have hread : ((s.setAcc (c j)).setData (s.data >>> (8 * j))).accValue = c j :=
      (accValue_eq _).trans (hsteps.lowBits_eq (by rw [h0, lowBits_lowBits])
        (Nat.le_add_right j k))
    rw [h0, ← accValue_eq] at hfirst hwhole
    rw [← hread] at hsecond
    exact ⟨_, _, _, exec_feedt_of_fold hj hj8 hl hfirst,
      exec_feedt_of_fold (s := (s.setAcc (c j)).setData _) hk hk8 hl hsecond,
      exec_feedt_of_fold h1 hjk hl hwhole, rfl, rfl, rfl, ⟨rfl, rfl⟩, ⟨rfl, rfl⟩⟩

/-- Settles O51: RESW selects the width, or is reserved. -/
theorem finishWritesResult : Obligations.FinishWritesResult := by
  refine ⟨by decide, fun s => ?_⟩
  intro W c
  have width {r : BitVec 3} {R : Nat} (h : resultWidth r W = some R) (hl : s.LegalBits)
      (hr : s.resw = r) : exec .finish s = .next { s with result := lowBits R c } := by
    rw [exec_finish_of_some hl (hr ▸ h), accValue_eq]
    rfl
  exact ⟨width rfl, width rfl, width rfl, width rfl, width rfl,
    fun hl h => exec_finish_of_none hl (resultWidth_of_reserved h W), fun hl => withBits_of_illegal hl _⟩

/-- Settles O52: each pair of feeds leaves the same state, which still has the generated table. -/
theorem tableAndDirectFoldAgree : Obligations.TableAndDirectFoldAgree := by
  intro s t u hl hgen htable hbits hpoly _
  have hu : u.HasGeneratedTable := hasGeneratedTable_of_gentab hl hgen htable hbits hpoly
  refine ⟨fun k _ _ => exec_feedt_eq_feedd hu k, fun feeds hk => ?_⟩
  obtain ⟨a, hstart⟩ := completes_exec (i := .start) rfl u
  obtain ⟨b, hfeedt, hfeedd⟩ := feedAll_agree hk (hu.of_accCommand (by decide) hstart)
  obtain ⟨v, hfinish⟩ := completes_exec (i := .finish) rfl b
  exact ⟨v, wholeFold_of_parts hstart hfeedt hfinish, wholeFold_of_parts hstart hfeedd hfinish⟩

/-- Settles O53: FINISH reads the ACC that START wrote. -/
theorem emptyFoldReturnsInit : Obligations.EmptyFoldReturnsInit := by
  intro s R hl hR
  have hfinish := exec_finish_of_some (s := s.setAcc (lowBits (selw s.bits.toNat) s.init)) hl
    (resultWidth_of_mem hR)
  refine ⟨_, _, exec_start_of_legal hl, hfinish, ?_⟩
  rw [accValue_eq]
  exact congrArg (lowBits R) (lowBits_lowBits _ _)

/-- Settles O58: of the arms of `exec`, FINISH alone reads RESW. -/
theorem resultWidthReadByFinishAlone : Obligations.ResultWidthReadByFinishAlone := by
  intro i s t r hi h
  obtain ⟨_, hgoes, _⟩ := reswAlike_exec hi s r t h
  exact hgoes

/-- Settles O46: START truncates INIT to the accumulator width. -/
theorem startLoadsInit : Obligations.StartLoadsInit :=
  ⟨by decide, fun _ => ⟨exec_start_of_legal, fun hl => withBits_of_illegal hl _⟩⟩

end Sys2Proof.Machine
end

section
/-! SUPPORT. The laws the proof of the family 44_control.md uses: the one word of NOP, and what NOP does. -/

namespace Sys2Proof.Machine

/-- OP 0x00 uses no operand field, so of its words only the all-zero one decodes (30_encoding.md R81, R86). -/
theorem eq_zero_of_decode_of_opField {w : Word} {i : Instr} (hop : opField w = 0)
    (h : decode w = .ok i) : w = 0 := by
  obtain ⟨-, ⟨hres, himm, hnm⟩, -⟩ := fields_of_decode h
  rw [hop] at himm hnm
  exact word_eq_of_fields hop (himm (by decide)) (hnm (by decide)) hres

theorem decode_zero : decode 0 = .ok .nop := by decide

theorem exec_nop (s : State) : exec .nop s = .next s := rfl

end Sys2Proof.Machine
end

section
/-! PROOFS. The obligation of the family 44_control.md. -/

namespace Sys2Proof.Machine

/-- Settles O54: a word with OP 0x00 that decodes is the all-zero one, and that is NOP. -/
theorem nopChangesNothing : Obligations.NopChangesNothing := by
  refine ⟨exec_nop, fun s w hop hw => ?_, fun s => ?_⟩
  · exact execute_of_not_decode (fun _ h => hw (eq_zero_of_decode_of_opField hop h)) s
  · exact (execute_of_decode decode_zero s).trans (exec_nop s)

end Sys2Proof.Machine
end

section
/-! SUPPORT. The laws the proofs of the family 60_exceptions.md share: a command at an illegal BITS, that no
command reads ERR or ERRCODE, how a command word completes, and which accesses the port accepts. -/

namespace Sys2Proof.Machine

/-! ### A command at an illegal BITS (60_exceptions.md R203) -/

/-- The three ranges of R203 are illegal widths (10_state.md R23). -/
theorem not_legalBits_of_ranges {s : State} (h : s.bits.toNat = 0 ∨
    (65 ≤ s.bits.toNat ∧ s.bits.toNat ≤ 127) ∨ (s.bits.toNat = 1 ∧ s.pNarrow = .reject)) :
    ¬ s.LegalBits := by
  rintro ⟨hpos, hle, hnarrow⟩
  rcases h with h0 | ⟨h65, -⟩ | ⟨h1, hreject⟩
  · omega
  · omega
  · exact hnarrow hreject h1

theorem countOk_iff {k : Nat} : countOk k = true ↔ 1 ≤ k ∧ k ≤ 8 := by
  simp only [countOk, Bool.and_eq_true, decide_eq_true_eq]

/-- The BITS check comes before all a command with an encoding does, but for NOP, which has none (R203, R207). -/
theorem exec_of_illegal {i : Instr} {s : State} (hi : i.wellFormed = true) (hnop : i ≠ .nop)
    (hl : ¬ s.LegalBits) : exec i s = .next (s.raised 2) := by
  cases i with
  | nop => exact absurd rfl hnop
  | selw | ones | tokoop | fromkoop | revpoly | lddef | gentab | start | finish =>
    exact withBits_of_illegal hl _
  | next b => exact exec_next_of_illegal (of_decide_eq_true hi) hl
  | dstep b => exact exec_dstep_of_illegal (of_decide_eq_true hi) hl
  | feedt k =>
    obtain ⟨h1, h8⟩ := countOk_iff.1 hi
    exact exec_feedt_of_illegal h1 h8 hl
  | feedd k =>
    obtain ⟨h1, h8⟩ := countOk_iff.1 hi
    exact exec_feedd_of_illegal h1 h8 hl

/-! ### No command reads ERR or ERRCODE (60_exceptions.md R201) -/

theorem CmdError.one_le_toNat_code (e : CmdError) : 1 ≤ e.code.toNat := by cases e <;> decide

/-- The same state with ERR = `e` and ERRCODE = `c`. -/
abbrev State.withError (s : State) (e : Bool) (c : BitVec 4) : State := { s with err := e, errcode := c }

/-- Wherever `r`, run from `s`, goes on, `r'`, run from `s` with the error `e`, `c`, goes on as well: either
`r` keeps the error of `s` and `r'` ends like `r` but with `e`, `c`, or both raise the same code. -/
def ErrorAlike (s : State) (e : Bool) (c : BitVec 4) (r r' : Result) : Prop :=
  ∀ t, r = .next t →
    (KeepsError s t ∧ r' = .next (t.withError e c)) ∨
    ∃ code : BitVec 4, 1 ≤ code.toNat ∧ code.toNat ≤ 5 ∧ t = s.raised code ∧
      r' = .next ((s.withError e c).raised code)

section ErrorAlike
variable {s : State} {e : Bool} {c : BitVec 4}

theorem ErrorAlike.kept {t t' : State} (ht : t' = t.withError e c) (hkeep : KeepsError s t) :
    ErrorAlike s e c (.next t) (.next t') := by
  rintro _ ⟨⟩
  exact .inl ⟨hkeep, congrArg _ ht⟩

theorem ErrorAlike.raise (x : CmdError) :
    ErrorAlike s e c (cmdError s x) (cmdError (s.withError e c) x) := by
  rw [cmdError_eq, cmdError_eq]
  rintro _ ⟨⟩
  exact .inr ⟨x.code, x.one_le_toNat_code, x.toNat_code_le, rfl, rfl⟩

/-- The legality of BITS does not depend on the error. -/
theorem ErrorAlike.withBits {k k' : Result} (hk : ErrorAlike s e c k k') :
    ErrorAlike s e c (withBits s k) (withBits (s.withError e c) k') := by
  unfold Machine.withBits
  rw [show (s.withError e c).legal = s.legal from rfl]
  split
  · exact hk
  · exact .raise .badBits

theorem ErrorAlike.withByte {b : Nat} {k k' : Byte → Result}
    (hk : ∀ byte, ErrorAlike s e c (k byte) (k' byte)) :
    ErrorAlike s e c (withByte b k) (withByte b k') := by
  unfold Machine.withByte
  split
  · exact hk _
  · rintro _ ⟨⟩

theorem ErrorAlike.withCount {n : Nat} {k k' : Result} (hk : ErrorAlike s e c k k') :
    ErrorAlike s e c (withCount n k) (withCount n k') := by
  unfold Machine.withCount
  split
  · exact hk
  · rintro _ ⟨⟩

theorem ErrorAlike.updateAcc (r : Except CmdError Word) :
    ErrorAlike s e c (s.updateAcc r) ((s.withError e c).updateAcc r) := by
  cases r with
  | ok a => exact .kept rfl ⟨rfl, rfl⟩
  | error x => exact .raise x

end ErrorAlike

theorem errorAlike_exec (i : Instr) (s : State) (e : Bool) (c : BitVec 4) :
    ErrorAlike s e c (exec i s) (exec i (s.withError e c)) := by
  cases i with
  | nop => exact .kept rfl ⟨rfl, rfl⟩
  | selw | ones | tokoop | fromkoop | revpoly | gentab => exact .withBits (.kept rfl ⟨rfl, rfl⟩)
  | lddef =>
    refine .withBits ?_
    rw [show (s.withError e c).crcWidth = s.crcWidth from rfl]
    cases defaultPoly s.crcWidth with
    | none => exact .raise .noDef
    | some p => exact .kept rfl ⟨rfl, rfl⟩
  | start => exact .withBits (.updateAcc (.ok _))
  | next b => exact .withByte fun byte => .withBits (.updateAcc _)
  | dstep b => exact .withByte fun byte => .withBits (.updateAcc (.ok _))
  | feedt k => exact .withCount (.withBits (.updateAcc _))
  | feedd k => exact .withCount (.withBits (.updateAcc (.ok _)))
  | finish =>
    refine .withBits ?_
    rw [show (s.withError e c).accWidth = s.accWidth from rfl]
    cases resultWidth s.resw s.accWidth with
    | none => exact .raise .badResw
    | some R => exact .kept rfl ⟨rfl, rfl⟩

/-! ### A command word completes (30_encoding.md R80; 60_exceptions.md R201) -/

theorem exec_response {i : Instr} {s t : State} (h : exec i s = .next t) : t.response = s.response := by
  rcases exec_next_cases h with
    ⟨rfl, -⟩ | ⟨e, rfl⟩ | ⟨v, rfl, -⟩ | ⟨v, rfl, -⟩ | ⟨rfl, -⟩ | ⟨v, rfl, -⟩
  · rfl
  · exact raiseCmdError_response ..
  · exact setResult_response ..
  · exact setPoly_response ..
  · exact setTable_response ..
  · exact setAcc_response ..

theorem execute_response {w : Word} {s t : State} (h : execute w s = .next t) :
    t.response = s.response := by
  rcases execute_next_cases h with ⟨i, -, h⟩ | rfl
  · exact exec_response h
  · exact raiseCmdError_response ..

/-- A word that decodes is a command with an encoding, and any other raises ILLEGAL. -/
theorem completes_execute (w : Word) (s : State) : Completes (execute w s) := by
  unfold execute
  split
  · rename_i i hi
    obtain ⟨-, -, hwf⟩ := fields_of_decode hi
    exact completes_exec hwf s
  · exact completes_cmdError s .illegal

/-! ### Accesses the port accepts (20_memory.md R51, R56, R57) -/

/-- An aligned offset outside the hole is a register's or an entry's. -/
theorem offset_cases {off : Nat} (halign : off % 8 = 0) (hoff : off < 0x1000)
    (hhole : ¬ (0x048 ≤ off ∧ off < 0x800)) :
    (∃ r : Reg, off = r.offset) ∨ ∃ n < 256, off = 0x800 + 8 * n := by
  by_cases hwindow : 0x800 ≤ off
  · exact .inr ⟨(off - 0x800) / 8, by omega, by omega⟩
  · have hregs : ∀ k < 9, ∃ r ∈ [Reg.id, .cfg, .poly, .init, .acc, .result, .data, .cmd, .status],
        8 * k = r.offset := by decide
    obtain ⟨r, -, hr⟩ := hregs (off / 8) (by omega)
    exact .inl ⟨r, by omega⟩

theorem writeStatus_response (s : State) (v : Word) : (s.writeStatus v).response = s.response := by
  unfold State.writeStatus
  split
  · exact clearError_response s
  · rfl

/-- A write to a register other than the two read-only ones completes, and what it does leaves the port and
the answer alone. -/
theorem writeReg_completes (s : State) (addr : Nat) (v : Word) {r : Reg} (hid : r ≠ .id)
    (hresult : r ≠ .result) :
    ∃ t, s.writeReg addr v r = .next t ∧ t.port = s.port ∧ t.response = s.response := by
  cases r with
  | id => exact absurd rfl hid
  | result => exact absurd rfl hresult
  | cfg => exact ⟨_, rfl, setCfg_port s v, setCfg_response s v⟩
  | poly => exact ⟨_, rfl, setPoly_port s v, setPoly_response s v⟩
  | init => exact ⟨_, rfl, setInit_port s v, setInit_response s v⟩
  | acc => exact ⟨_, rfl, setAcc_port s v, setAcc_response s v⟩
  | data => exact ⟨_, rfl, setData_port s v, setData_response s v⟩
  | status => exact ⟨_, rfl, writeStatus_port s v, writeStatus_response s v⟩
  | cmd =>
    obtain ⟨t, ht⟩ := completes_execute v s
    exact ⟨t, ht, execute_port ht, execute_response ht⟩

end Sys2Proof.Machine
end

section
/-! PROOFS. The obligations of the family 60_exceptions.md. -/

namespace Sys2Proof.Machine

/-- Settles O16: each of the three ranges is illegal, and the BITS check is a command's first. -/
theorem badBitsRaised : Obligations.BadBitsRaised := fun _ _ hwf hnop hbits =>
  exec_of_illegal hwf hnop (not_legalBits_of_ranges hbits)

/-- Settles O17: the two runs go alike, and a CMD write completes because its word does. -/
theorem failingCommandChangesStatusOnly : Obligations.FailingCommandChangesStatusOnly := by
  refine ⟨fun i s t e c h => errorAlike_exec i s e c t h, fun s w rest h => ?_⟩
  obtain ⟨t, ht⟩ := completes_execute w { s with port := rest, response := some .writeDone }
  exact ⟨t, (step_cmdWrite h).trans ht, execute_response ht⟩

/-- Settles O27: the access reaches a register or an entry, and neither read nor write there is refused. -/
theorem acceptedAccessesComplete : Obligations.AcceptedAccessesComplete := by
  intro s rest off halign hoff hhole
  rcases offset_cases halign hoff hhole with ⟨r, rfl⟩ | ⟨n, hn, rfl⟩
  · refine ⟨fun _ h => ⟨_, step_readReg r h⟩, fun v hid hresult h => ?_⟩
    rw [step_writeReg r h]
    exact writeReg_completes _ _ v (fun hr => hid (congrArg Reg.offset hr))
      (fun hr => hresult (congrArg Reg.offset hr))
  · rw [← Nat.add_assoc]
    refine ⟨fun hvalid h => ?_, fun v _ _ h => ⟨_, step_writeEntry hn h, rfl, rfl⟩⟩
    have hindex : (0x800 + 8 * n - 0x800) / 8 = n := by omega
    obtain ⟨v, hv⟩ := Option.isSome_iff_exists.1 (hvalid (Nat.le_add_right ..))
    rw [hindex] at hv
    exact ⟨v, step_readEntry_of_some hn h hv⟩

end Sys2Proof.Machine
end

section
/-! SUPPORT. The laws the proofs of the family 70_reset_and_hazards.md use: the state a reset event leaves, and
what the commands do in the reset state. -/

namespace Sys2Proof.Machine

/-! ### The state after a reset event (70_reset_and_hazards.md R230, R231) -/

/-- Power-up leaves what a reset event leaves. -/
theorem exists_eq_resetBlock {t : State}
    (h : t = State.reset ∨ ∃ s rest, s.port = .reset :: rest ∧ step s = .next t) :
    ∃ (s : State) (rest : List PortEvent), t = { s.resetBlock with port := rest } := by
  rcases h with rfl | ⟨s, rest, hport, hstep⟩
  · exact ⟨State.reset, [], rfl⟩
  · rw [step_reset hport] at hstep
    cases hstep
    exact ⟨s, rest, rfl⟩

theorem resumeAfter_of_resetDuring {s : State} {a : Access} {rest : List PortEvent}
    (h : s.port = .resetDuring a :: rest) : s.resumeAfter = { s.resetBlock with port := rest } := by
  rw [State.resumeAfter, h]

/-! ### The commands in the reset state (70_reset_and_hazards.md R233) -/

/-- BITS = 32 is a legal width (10_state.md R23, R39). -/
theorem legalBits_reset : State.reset.LegalBits := legalBits_of_ge_two (by decide) (by decide)

theorem readEntry_reset (n : Nat) : State.reset.table.readEntry n = none := readEntry_nil n

/-- The commands without an operand complete without an error: width 32 has a default polynomial (41_table.md
R121), and RESW 0 selects a result width (10_state.md R24). -/
theorem exec_reset_keepsError {i : Instr} (h : i ∈ [Instr.nop, .selw, .ones, .tokoop, .fromkoop,
    .revpoly, .lddef, .gentab, .start, .finish]) :
    ∃ t, exec i State.reset = .next t ∧ KeepsError State.reset t := by
  have hl := legalBits_reset
  cases i with
  | nop => exact ⟨_, exec_nop _, rfl, rfl⟩
  | selw => exact ⟨_, selw_writesForm.of_legal hl, rfl, rfl⟩
  | ones => exact ⟨_, ones_writesForm.of_legal hl, rfl, rfl⟩
  | tokoop => exact ⟨_, tokoop_writesForm.of_legal hl, rfl, rfl⟩
  | fromkoop => exact ⟨_, fromkoop_writesForm.of_legal hl, rfl, rfl⟩
  | revpoly => exact ⟨_, revpoly_writesForm.of_legal hl, rfl, rfl⟩
  | lddef => exact ⟨_, exec_lddef_of_some hl rfl, rfl, rfl⟩
  | gentab => exact ⟨_, exec_gentab_of_legal hl, rfl, rfl⟩
  | start => exact ⟨_, exec_start_of_legal hl, rfl, rfl⟩
  | finish => exact ⟨_, exec_finish_of_some hl rfl, rfl, rfl⟩
  | next | dstep | feedt | feedd => simp at h

/-- With no valid entry a table fold stops at its first byte (43_stream.md R165). -/
theorem foldTable_of_no_entry {m : Memory} (hm : ∀ n, m.readEntry n = none) (W : Nat) (c v : Word)
    {k : Nat} (h1 : 1 ≤ k) : foldTable m W c (dataBytes v k) = .error .tabUninit :=
  TableSteps.foldTable_of_none (c := fun _ => c) (j := 0) nofun h1 (hm _)

theorem updateAcc_error (s : State) (e : CmdError) : s.updateAcc (.error e) = .next (s.raised e.code) :=
  cmdError_eq s e

end Sys2Proof.Machine
end

section
/-! PROOFS. The obligations of the family 70_reset_and_hazards.md. -/

namespace Sys2Proof.Machine

/-- Settles O1: every such state is what `State.resetBlock` leaves, whose table holds no entry. -/
theorem resetSetsEveryRegister : Obligations.ResetSetsEveryRegister := by
  refine ⟨fun t h => ?_, fun s rest h => ⟨_, step_reset h⟩⟩
  obtain ⟨s, rest, rfl⟩ := exists_eq_resetBlock h
  exact ⟨rfl, rfl, rfl, rfl, rfl, rfl, rfl, rfl, rfl, readEntry_reset⟩

/-- Settles O2: BITS = 32 is legal, and no entry of the reset table is valid. -/
theorem commandsRightAfterReset : Obligations.CommandsRightAfterReset := by
  have hl := legalBits_reset
  refine ⟨fun i => exec_reset_keepsError,
    fun b hb => ⟨_, exec_dstep_of_legal hb hl, rfl, rfl⟩,
    fun k h1 h8 => ⟨_, exec_feedd_of_legal h1 h8 hl, rfl, rfl⟩,
    fun b hb => ?_, fun k h1 h8 => ?_, fun n hn s rest htable h => ?_⟩
  · rw [exec_next_of_legal hb hl, nextByte_of_none (readEntry_reset _), updateAcc_error]
    rfl
  · rw [exec_feedt_of_legal h1 h8 hl, foldTable_of_no_entry readEntry_reset _ _ _ h1, updateAcc_error]
    rfl
  · exact step_readEntry_of_none hn h (htable ▸ readEntry_reset n)

/-- Settles O3: the step stops there, and the block goes on as after a reset event. -/
theorem accessCutShortByReset : Obligations.AccessCutShortByReset := fun _ _ _ h =>
  ⟨step_resetDuring h, resumeAfter_of_resetDuring h⟩

end Sys2Proof.Machine
end

section
/-! SUPPORT. The laws the proofs of the decoder and the encoder use: the operand fields of a command, and that
a command is read from one word only. -/

namespace Sys2Proof.Machine

/-- IMM8 of a command's word: the byte operand, 0 where the form has none (30_encoding.md R82). -/
def imm8Of : Instr → Byte
  | .next b | .dstep b => BitVec.ofNat 8 b
  | _ => 0

/-- NM1 of a command's word: the count minus one, 0 where the form has none (30_encoding.md R83). -/
def nm1Of : Instr → BitVec 3
  | .feedt k | .feedd k => BitVec.ofNat 3 (k - 1)
  | _ => 0

/-- A word that decodes has the operand fields of its command. -/
theorem operandFields_of_decode {w : Word} {i : Instr} (h : decode w = .ok i) :
    imm8Field w = imm8Of i ∧ nm1Field w = nm1Of i := by
  unfold decode at h
  split at h
  · cases h
  · unfold decodeOp at h
    split at h
    case h_1 | h_2 | h_3 | h_4 | h_5 | h_6 | h_7 | h_8 | h_11 | h_14 =>
      obtain ⟨rfl, himm, hnm⟩ := decodeC0_ok h
      exact ⟨himm, hnm⟩
    case h_9 | h_10 =>
      obtain ⟨rfl, hnm⟩ := decodeCB_ok h
      exact ⟨by simp [imm8Of], hnm⟩
    case h_12 | h_13 =>
      obtain ⟨rfl, himm⟩ := decodeCN_ok h
      exact ⟨himm, by simp [nm1Of]⟩
    case h_15 => cases h

/-- The command fixes all four fields of R81, so no two words decode to it. -/
theorem decode_injective {v w : Word} {i : Instr} (hv : decode v = .ok i) (hw : decode w = .ok i) :
    v = w := by
  obtain ⟨vop, vzero, -⟩ := fields_of_decode hv
  obtain ⟨wop, wzero, -⟩ := fields_of_decode hw
  obtain ⟨vimm, vnm⟩ := operandFields_of_decode hv
  obtain ⟨wimm, wnm⟩ := operandFields_of_decode hw
  exact word_eq_of_fields (vop.trans wop.symm) (vimm.trans wimm.symm) (vnm.trans wnm.symm)
    (vzero.reserved.trans wzero.reserved.symm)

end Sys2Proof.Machine
end

section
/-! PROOFS. The obligations on the decoder and the encoder. -/

namespace Sys2Proof.Machine

/-- Settles O5, command by command: a form with an operand has its own law, and a C0 command has one word. -/
theorem decodeOfEncode : Obligations.DecodeOfEncode := by
  intro i hwf
  cases i with
  | next b => exact decode_encode_next (of_decide_eq_true hwf)
  | dstep b => exact decode_encode_dstep (of_decide_eq_true hwf)
  | feedt k =>
    obtain ⟨h1, h8⟩ := countOk_iff.1 hwf
    exact decode_encode_feedt k h8 h1
  | feedd k =>
    obtain ⟨h1, h8⟩ := countOk_iff.1 hwf
    exact decode_encode_feedd k h8 h1
  | nop | selw | ones | tokoop | fromkoop | revpoly | lddef | gentab | start | finish => decide

/-- Settles O6: the word and the encoding of its command both decode to that command, so they are one word. -/
theorem encodeOfDecode : Obligations.EncodeOfDecode := by
  intro w i h
  obtain ⟨-, -, hwf⟩ := fields_of_decode h
  exact ⟨hwf, decode_injective (decodeOfEncode i hwf) h⟩

/-- Settles O4: the decoder runs on each of the eight fixed words. -/
theorem specWordsDecode : Obligations.SpecWordsDecode := by
  unfold Obligations.SpecWordsDecode
  decide

end Sys2Proof.Machine
end
